-- ==== Sys2Proof/Word.lean ====
section
/-! DEFINITION. The one data type of the hardware: an unsigned byte (00_scope.md R8).
There is no wider word, no signed type and no other width (R8, R124). -/

namespace Sys2Proof

/-- A byte: a register's value, a memory cell, an opcode or an operand (R8: bit 7 is the most significant bit). -/
abbrev Byte := BitVec 8

end Sys2Proof
end

