-- ==== Sys2Proof/Config.lean ====
section
/-! DEFINITION. The implementation parameters of 00_scope.md R6, as the configuration record R6 asks for.
The reference configuration (the defaults of R6) stands in Machine/Reference.lean; the constraints of R7 stand in
WellFormed.lean. Nothing of the spec is a random draw (R10), so there is no free value and no opaque constant here. -/

namespace Sys2Proof

/-- The fourteen operations an opcode byte can select (R2, a closed list): the "tagged operation" of R97. -/
inductive Operation where
  | add | multiply | compare | loadImmediate | store | push | pop | call | ret | jump | jumpIfEqual
  | jumpIfNotEqual | printRegister | halt
  deriving DecidableEq, Repr

/-- The parameters `OPC_<name>` of R6 and R96: the opcode byte of each instruction. -/
structure Opcodes where
  /-- `OPC_ADD` -/
  add : Byte
  /-- `OPC_MUL` -/
  multiply : Byte
  /-- `OPC_CMP` -/
  compare : Byte
  /-- `OPC_LDI` -/
  loadImmediate : Byte
  /-- `OPC_ST` -/
  store : Byte
  /-- `OPC_PUSH` -/
  push : Byte
  /-- `OPC_POP` -/
  pop : Byte
  /-- `OPC_CALL` -/
  call : Byte
  /-- `OPC_RET` -/
  ret : Byte
  /-- `OPC_JMP` -/
  jump : Byte
  /-- `OPC_JEQ` -/
  jumpIfEqual : Byte
  /-- `OPC_JNE` -/
  jumpIfNotEqual : Byte
  /-- `OPC_PRN` -/
  printRegister : Byte
  /-- `OPC_HLT` -/
  halt : Byte
  deriving DecidableEq, Repr

/-- The parameters of R6. `NUM_REGS` is fixed at 8 by R6 and is no field. `SP_INIT` is computed (`Config.spInit`). -/
structure Config where
  /-- `MEM_CAPACITY`: the number of byte cells of memory. -/
  memCapacity : Nat
  /-- `VECTOR_TABLE_SIZE`: the number of cells left free at the top of memory (OPEN in the spec, D3; log 2). -/
  vectorTableSize : Nat
  /-- `STACK_LIMIT`: the lowest address a push may write (D8; log 5). -/
  stackLimit : Nat
  /-- `FLAGS_STICKY`: whether COMPARE leaves old condition bits set (D6; log 4). -/
  flagsSticky : Bool
  /-- `SP_INDEX`: the register that is the stack pointer (D4; log 6). -/
  spIndex : Fin 8
  /-- `FL_E`: the bit position of EQUAL in FL (D5; log 7). -/
  flE : Fin 8
  /-- `FL_G`: the bit position of GREATER_THAN in FL. -/
  flG : Fin 8
  /-- `FL_L`: the bit position of LESS_THAN in FL. -/
  flL : Fin 8
  /-- The fourteen `OPC_<name>` (D18; log 3). -/
  opcodes : Opcodes
  deriving DecidableEq, Repr

end Sys2Proof
end

