-- ==== Sys2Proof/Machine/Reference.lean ====
section
/-! DEFINITION. The reference configuration: the column "default" of 00_scope.md R6, the opcode bytes of 30_encoding.md
R96, and the formula for the initial stack pointer. Of these values 256, 0x82, 0x47 and 0x01 are the source's; the others
are the spec's decisions and general knowledge (log 2 to 7). -/

namespace Sys2Proof

/-- The opcode bytes of R96. UNVERIFIED but for 0x82, 0x47, 0x01 (the spec's D18; log 3). -/
def Opcodes.reference : Opcodes where
  add := 0xA0
  multiply := 0xA2
  compare := 0xA7
  loadImmediate := 0x82
  store := 0x84
  push := 0x45
  pop := 0x46
  call := 0x50
  ret := 0x11
  jump := 0x54
  jumpIfEqual := 0x55
  jumpIfNotEqual := 0x56
  printRegister := 0x47
  halt := 0x01

/-- The reference configuration of R6. UNVERIFIED values: see log 2 (VECTOR_TABLE_SIZE), 4 (FLAGS_STICKY), 5 (STACK_LIMIT),
6 (SP_INDEX), 7 (flag positions). -/
def Config.reference : Config where
  memCapacity := 256
  vectorTableSize := 11
  stackLimit := 0
  flagsSticky := false
  spIndex := 7
  flE := 0
  flG := 1
  flL := 2
  opcodes := Opcodes.reference

/-- `SP_INIT = MEM_CAPACITY - 1 - VECTOR_TABLE_SIZE` (R6, R38): the reset value of the stack pointer. -/
def Config.spInit (c : Config) : Byte := BitVec.ofNat 8 (c.memCapacity - 1 - c.vectorTableSize)

end Sys2Proof
end

