-- ==== Sys2Proof/Machine/State.lean ====
section
/-! DEFINITION. The state of the machine (10_state.md R20), its faults (60_exceptions.md R201), its output events (R35),
its memory's canonical form, and its reset value (R38, R241). -/

namespace Sys2Proof.Machine

/-- The six fault causes of R201, each with the one value it records (D16). A fault of the spec is no stop of the model:
it is the next state with `status` = FAULTED(cause, info) (R210; log 9), and the Host's `fault` outcome is never
answered. So every constructor here is safe: where it is raised the hardware raises it too. -/
inductive Fault where
  /-- OUT_OF_BOUNDS, code 1 (R202). Raised by `memRead` and `memWrite` and by the fetch: the offending address. -/
  | outOfBounds (addr : Nat)
  /-- INVALID_REGISTER, code 2 (R203). Raised by `readReg` and `writeReg`: the offending index, 8 to 255. -/
  | invalidRegister (index : Byte)
  /-- UNSUPPORTED_ALU_OP, code 3 (R204). Raised by nobody: the decoder never misuses the ALU (R125; log 26). -/
  | unsupportedAluOp
  /-- UNKNOWN_OPCODE, code 4 (R205). Raised by the fetch: the opcode byte. -/
  | unknownOpcode (op : Byte)
  /-- STACK_OVERFLOW, code 5 (R206). Raised by `stackDec` in PUSH and CALL: SP before the instruction. -/
  | stackOverflow (sp : Byte)
  /-- STACK_UNDERFLOW, code 6 (R207). Raised by `stackTop` in POP and RETURN: SP before the instruction. -/
  | stackUnderflow (sp : Byte)
  deriving DecidableEq, Repr

/-- Why the model gives no next state. -/
inductive Refusal where
  /-- An instruction without a meaning, by its mnemonic. Raised by no arm: all fourteen have their meaning. Safe. -/
  | notModelled (mnemonic : String)
  /-- The configuration breaks R7: bits 7:6 of this opcode do not count its operands. Raised by the fetch, never under a
  valid configuration; the spec says nothing of such a core. Safe (log 21). -/
  | illFormedOpcodeTable (op : Byte)
  deriving DecidableEq, Repr

/-- The output events of R35. -/
inductive Event where
  /-- `Observe(v)`, to the observation sink; produced by PRINT_REGISTER. -/
  | observe (v : Byte)
  /-- `MulResult(v)`, to the result port; produced by MULTIPLY (D13; log 12). -/
  | mulResult (v : Byte)
  deriving DecidableEq, Repr

/-- The run status of R33. -/
inductive Status where
  /-- RUNNING: the core executes dispatch cycles. -/
  | running
  /-- HALTED: a HALT was dispatched; terminal. -/
  | halted
  /-- FAULTED(cause, info): a fatal error was detected; terminal. -/
  | faulted (f : Fault)
  deriving DecidableEq, Repr

/-- Memory as (address, byte) pairs in one canonical form, `Memory.wf`; every cell exists from reset (R60, R38). -/
abbrev Memory := List Host.Cell

/-- What a cell that is not listed reads as: 0, the reset value of every cell (R38). -/
def Memory.unlisted : Byte := 0

/-- The canonical form: addresses strictly rising, and no entry equal to what an unlisted address reads as. -/
abbrev Memory.wf (m : Memory) : Prop :=
  m.Pairwise (fun p q => p.1 < q.1) ∧ ∀ p ∈ m, p.2 ≠ Memory.unlisted

/-- The architectural state of R20, and beside it the machine's fixed configuration. -/
structure State where
  /-- The model's own field: the parameters of R6, which no step changes (log 1). -/
  cfg : Config
  /-- `mem`, one byte-addressed memory for code, data and stack (R60, R61). -/
  mem : Memory
  /-- `x[0] .. x[7]` (R21); R5 and R6 also bear the names IM and IS (R24); `x[SP_INDEX]` is the stack pointer (R23). -/
  regs : Vector Byte 8
  /-- `FL`, separate from the register file (R30). -/
  fl : Byte
  /-- `pc`, an unsigned integer that never wraps (R26, R28). -/
  pc : Nat
  /-- `status` (R33). -/
  status : Status
  /-- `out`, the events handed to the two output interfaces, oldest first (R35). -/
  out : List Event
  deriving DecidableEq, Repr

/-- The state after reset in a given configuration: every value of R38. It does not depend on the state before (R241). -/
def State.resetOf (c : Config) : State where
  cfg := c
  mem := []
  regs := (Vector.replicate 8 0).set c.spIndex c.spInit
  fl := 0
  pc := 0
  status := .running
  out := []

/-- The machine right after reset, in the reference configuration of R6. -/
def State.reset : State := State.resetOf Config.reference

end Sys2Proof.Machine
end

