-- ==== Sys2Proof/Machine/Ops.lean ====
section
/-! DEFINITION. The named operations over memory, registers, stack, program counter, output and status: the primitives
of 00_scope.md R9, each from the rule that defines it, and taking a fault (60_exceptions.md R210, R211). -/

namespace Sys2Proof.Machine

/-! ### Memory cells -/

/-- The byte a memory holds at an address. -/
def Memory.read : Memory → Nat → Byte
  | [], _ => Memory.unlisted
  | (k, v) :: m, a => if a = k then v else Memory.read m a

/-- The memory with a byte replaced at an address, in canonical form: writing what an unlisted address reads as removes
the entry. -/
def Memory.write : Memory → Nat → Byte → Memory
  | [], a, v => if v = Memory.unlisted then [] else [(a, v)]
  | (k, w) :: m, a, v =>
    if a < k then (if v = Memory.unlisted then (k, w) :: m else (a, v) :: (k, w) :: m)
    else if a = k then (if v = Memory.unlisted then m else (a, v) :: m)
    else (k, w) :: Memory.write m a v

/-- `MemRead(addr, 1)` (R62). -/
def memRead (s : State) (addr : Nat) : Except Fault Byte :=
  if addr < s.cfg.memCapacity then .ok (s.mem.read addr) else .error (.outOfBounds addr)

/-- `MemWrite(addr, 1, v)` (R63). -/
def memWrite (s : State) (addr : Nat) (v : Byte) : Except Fault State :=
  if addr < s.cfg.memCapacity then .ok { s with mem := s.mem.write addr v } else .error (.outOfBounds addr)

/-! ### Registers -/

/-- The register read `x[i]` (R22): checked when the access is made, the whole byte is the index (R94). -/
def readReg (s : State) (i : Byte) : Except Fault Byte :=
  if h : i.toNat < 8 then .ok s.regs[i.toNat] else .error (.invalidRegister i)

/-- The register write `x[i] <- v` (R22). -/
def writeReg (s : State) (i v : Byte) : Except Fault State :=
  if h : i.toNat < 8 then .ok { s with regs := s.regs.set i.toNat v } else .error (.invalidRegister i)

/-- `SP`: one and the same 8 bits as `x[SP_INDEX]` (R23). -/
def State.sp (s : State) : Byte := s.regs[s.cfg.spIndex]

/-- The write of `SP`. -/
def State.setSp (s : State) (v : Byte) : State := { s with regs := s.regs.set s.cfg.spIndex v }

/-- The write of `FL`, which only COMPARE does (R31). -/
def State.setFl (s : State) (v : Byte) : State := { s with fl := v }

/-! ### Program counter, output, status -/

/-- `pc <- pc + len`, never reduced (R27, R28). -/
def State.advance (s : State) (len : Nat) : State := { s with pc := s.pc + len }

/-- `pc <- target`, the byte itself as an absolute address (R8, R27). -/
def State.jumpTo (s : State) (target : Byte) : State := { s with pc := target.toNat }

/-- `Emit(ev)`: append to the output stream; it cannot fail or block (R35). -/
def State.emit (s : State) (ev : Event) : State := { s with out := s.out ++ [ev] }

/-- `status <- HALTED` (R181). -/
def State.halt (s : State) : State := { s with status := .halted }

/-! ### Taking a fault -/

/-- Fault entry (R210): `status <- FAULTED(cause, info)`; nothing else changes and control goes nowhere. There is no
handler, no saved register and no return (R212). -/
def raiseFault (f : Fault) (s : State) : State := { s with status := .faulted f }

/-- Step 6 of R98: where an instruction's rule raised no fault its changes take effect together; where it raised one,
none of them does and the fault is taken from the state the cycle began in (R211; log 11). -/
def commit (s : State) (r : Except Fault State) : Host.Outcome State Fault Refusal :=
  match r with
  | .ok t => .next t
  | .error f => .next (raiseFault f s)

/-- What a step does when the run has ended: nothing (R34; log 10). -/
def endedStep (s : State) : Host.Outcome State Fault Refusal := .next s

/-- The cause codes of R201 (D16; log 26). -/
def Fault.code : Fault → Nat
  | .outOfBounds _ => 1
  | .invalidRegister _ => 2
  | .unsupportedAluOp => 3
  | .unknownOpcode _ => 4
  | .stackOverflow _ => 5
  | .stackUnderflow _ => 6

/-! ### The stack primitives -/

/-- `StackDec()` (R151): both overflow tests on the unreduced integer `SP - 1`, then the decrement; returns the address to
write and the state with the new `SP`. Once the tests pass `SP` is at least 1, so the byte `SP - 1` does not wrap. -/
def stackDec (s : State) : Except Fault (Nat × State) :=
  let t : Int := (s.sp.toNat : Int) - 1
  if t < (s.cfg.stackLimit : Int) then .error (.stackOverflow s.sp)
  else if t = (s.pc : Int) then .error (.stackOverflow s.sp)
  else .ok (t.toNat, s.setSp (s.sp - 1))

/-- `StackTop()` (R152): the underflow test against the size of memory; returns the address to read. -/
def stackTop (s : State) : Except Fault Nat :=
  if s.sp.toNat + 1 ≥ s.cfg.memCapacity then .error (.stackUnderflow s.sp) else .ok s.sp.toNat

end Sys2Proof.Machine
end

