-- ==== Sys2Proof/Machine/Flags.lean ====
section
/-! DEFINITION. The flags register FL and its one computation, COMPARE's (10_state.md R30, R31; 40_alu.md R123). -/

namespace Sys2Proof.Machine

/-- The byte with only the bit at a position set. -/
def flagMask (p : Fin 8) : Byte := 1 <<< p.val

/-- The bit of FL at a position. -/
def flagBit (fl : Byte) (p : Fin 8) : Bool := fl.getLsbD p.val

/-- FL with the bit at a position set to 1. -/
def setFlag (fl : Byte) (p : Fin 8) : Byte := fl ||| flagMask p

/-- FL with the bit at a position cleared. -/
def clearFlag (fl : Byte) (p : Fin 8) : Byte := fl &&& ~~~flagMask p

/-- FL before COMPARE sets its result: E, G and L cleared, unless `FLAGS_STICKY` (R123). -/
def clearConditions (c : Config) (fl : Byte) : Byte :=
  if c.flagsSticky then fl else clearFlag (clearFlag (clearFlag fl c.flE) c.flG) c.flL

/-- FL after COMPARE of two register values: the sign of the integer difference, never reduced mod 256 (R123). -/
def compareFlags (c : Config) (fl va vb : Byte) : Byte :=
  let d : Int := (va.toNat : Int) - (vb.toNat : Int)
  let f0 := clearConditions c fl
  let f1 := if d = 0 then setFlag f0 c.flE else f0
  let f2 := if d > 0 then setFlag f1 c.flG else f1
  if d < 0 then setFlag f2 c.flL else f2

/-- `FL.E`, EQUAL: the only flag an instruction reads (R31). -/
def State.flagE (s : State) : Bool := flagBit s.fl s.cfg.flE

/-- `FL.G`, GREATER_THAN: written by COMPARE, read by no instruction (R31). -/
def State.flagG (s : State) : Bool := flagBit s.fl s.cfg.flG

/-- `FL.L`, LESS_THAN: written by COMPARE, read by no instruction (R31). -/
def State.flagL (s : State) : Bool := flagBit s.fl s.cfg.flL

end Sys2Proof.Machine
end

