-- ==== Sys2Proof/Machine/Operands.lean ====
section
/-! DEFINITION. The operand forms: every one the spec gives (30_encoding.md R94, R95). An operand byte is a register index
or an immediate; there is no other addressing mode. -/

namespace Sys2Proof.Machine

/-- The index of the register that also bears the name INTERRUPT_MASK (IM): R5, and nothing more than a name (R24). -/
def indexIM : Byte := 5

/-- The index of the register that also bears the name INTERRUPT_STATUS (IS): R6, and nothing more than a name (R24). -/
def indexIS : Byte := 6

/-- A source register operand (R94): the register's byte, or INVALID_REGISTER when the index names no register. -/
def regOperand (s : State) (a : Byte) : Except Fault Byte := readReg s a

/-- Two source register operands, `a` read before `b`, so that the fault reports `a` when both are invalid (R120, D14). -/
def regPair (s : State) (a b : Byte) : Except Fault (Byte × Byte) := do
  let va ← regOperand s a
  let vb ← regOperand s b
  pure (va, vb)

/-- The immediate operand (R95): the unsigned byte as it stands, not extended, scaled or shifted. -/
def immOperand (imm : Byte) : Byte := imm

end Sys2Proof.Machine
end

