-- ==== Sys2Proof/Machine/Alu.lean ====
section
/-! DEFINITION. The ALU instructions ADD, MULTIPLY, COMPARE (40_alu.md R120 to R124). -/

namespace Sys2Proof.Machine

/-- ADD a b (R121): `x[a] <- (x[a] + x[b]) mod 256`; no flag; the carry is lost (R124). -/
def execAdd (a b : Byte) (s : State) : Host.Outcome State Fault Refusal :=
  commit s do
    let (va, vb) ← regPair s a b
    let t ← writeReg s a (va + vb)
    pure (t.advance 3)

/-- MULTIPLY a b (R122): the product mod 256 leaves on the result port; no register and no flag is written. -/
def execMultiply (a b : Byte) (s : State) : Host.Outcome State Fault Refusal :=
  commit s do
    let (va, vb) ← regPair s a b
    pure ((s.emit (.mulResult (va * vb))).advance 3)

/-- COMPARE a b (R123): FL's E, G, L from the unsigned comparison; no register is written. -/
def execCompare (a b : Byte) (s : State) : Host.Outcome State Fault Refusal :=
  commit s do
    let (va, vb) ← regPair s a b
    pure ((s.setFl (compareFlags s.cfg s.fl va vb)).advance 3)

end Sys2Proof.Machine
end

