-- ==== Sys2Proof/Machine/Branch.lean ====
section
/-! DEFINITION. The branch instructions JUMP, JUMP_IF_EQUAL, JUMP_IF_NOT_EQUAL (44_branch.md R170 to R173). -/

namespace Sys2Proof.Machine

/-- A taken transfer to the address in register `a` (R173: absolute, no alignment, no delay slot). -/
def branchTo (a : Byte) (s : State) : Except Fault State := do
  let target ← regOperand s a
  pure (s.jumpTo target)

/-- JUMP a (R170). -/
def execJump (a : Byte) (s : State) : Host.Outcome State Fault Refusal := commit s (branchTo a s)

/-- JUMP_IF_EQUAL a (R171): the register is accessed only when the jump is taken. -/
def execJumpIfEqual (a : Byte) (s : State) : Host.Outcome State Fault Refusal :=
  commit s (if s.flagE = true then branchTo a s else .ok (s.advance 2))

/-- JUMP_IF_NOT_EQUAL a (R172): the register is accessed only when the jump is taken. -/
def execJumpIfNotEqual (a : Byte) (s : State) : Host.Outcome State Fault Refusal :=
  commit s (if s.flagE = false then branchTo a s else .ok (s.advance 2))

end Sys2Proof.Machine
end

