-- ==== Sys2Proof/Machine/DataMove.lean ====
section
/-! DEFINITION. The data-move instructions LOAD_IMMEDIATE and STORE (41_data_move.md R140, R141). -/

namespace Sys2Proof.Machine

/-- LOAD_IMMEDIATE a imm (R140): `x[a] <- imm`. -/
def execLoadImmediate (a imm : Byte) (s : State) : Host.Outcome State Fault Refusal :=
  commit s do
    let t ← writeReg s a (immOperand imm)
    pure (t.advance 3)

/-- STORE a b (R141): `x[b] <- x[a]`, a register copy that writes no memory; the source is read first. -/
def execStore (a b : Byte) (s : State) : Host.Outcome State Fault Refusal :=
  commit s do
    let v ← regOperand s a
    let t ← writeReg s b v
    pure (t.advance 3)

end Sys2Proof.Machine
end

