-- ==== Sys2Proof/Machine/Stack.lean ====
section
/-! DEFINITION. The stack instructions PUSH and POP (42_stack.md R150 to R154). -/

namespace Sys2Proof.Machine

/-- PUSH a (R153): the stack test and decrement, then the register read (so PUSH of the stack pointer pushes the
decremented value), then the write of `mem[SP]`. -/
def execPush (a : Byte) (s : State) : Host.Outcome State Fault Refusal :=
  commit s do
    let (t, s1) ← stackDec s
    let v ← regOperand s1 a
    let s2 ← memWrite s1 t v
    pure (s2.advance 2)

/-- POP a (R154): the stack test, the read of `mem[SP]`, the register write, then `x[7] <- (x[7] + 1) mod 256` read after
that write (so POP into the stack pointer leaves the popped value plus 1). -/
def execPop (a : Byte) (s : State) : Host.Outcome State Fault Refusal :=
  commit s do
    let t ← stackTop s
    let v ← memRead s t
    let s1 ← writeReg s a v
    pure ((s1.setSp (s1.sp + 1)).advance 2)

end Sys2Proof.Machine
end

