-- ==== Sys2Proof/Machine/Subroutine.lean ====
section
/-! DEFINITION. The subroutine instructions CALL and RETURN (43_subroutine.md R160, R161). -/

namespace Sys2Proof.Machine

/-- CALL a (R160): the stack test and decrement, the write of the return address `(pc + 2) mod 256`, then the target is
read (after the decrement) and loaded into `pc`. -/
def execCall (a : Byte) (s : State) : Host.Outcome State Fault Refusal :=
  commit s do
    let (t, s1) ← stackDec s
    let s2 ← memWrite s1 t (BitVec.ofNat 8 (s.pc + 2))
    let target ← regOperand s2 a
    pure (s2.jumpTo target)

/-- RETURN (R161): the stack test, the read of `mem[SP]`, `SP <- SP + 1` (at most 255 once the test passed), and `pc`
takes the byte read. -/
def execReturn (s : State) : Host.Outcome State Fault Refusal :=
  commit s do
    let t ← stackTop s
    let target ← memRead s t
    pure ((s.setSp (s.sp + 1)).jumpTo target)

end Sys2Proof.Machine
end

