-- ==== Sys2Proof/Machine/System.lean ====
section
/-! DEFINITION. The system instructions PRINT_REGISTER and HALT (45_system.md R180, R181). -/

namespace Sys2Proof.Machine

/-- PRINT_REGISTER a (R180): emits `Observe(x[a])`. -/
def execPrintRegister (a : Byte) (s : State) : Host.Outcome State Fault Refusal :=
  commit s do
    let v ← regOperand s a
    pure ((s.emit (.observe v)).advance 2)

/-- HALT (R181): `status <- HALTED`; `pc` stays at the HALT (D17; log 18). -/
def execHalt (s : State) : Host.Outcome State Fault Refusal := commit s (.ok s.halt)

end Sys2Proof.Machine
end

