-- ==== Sys2Proof/Syntax.lean ====
section
/-! DEFINITION. The instructions as syntax: one constructor per row of spec/opcode_table.json (R2, R91).
`a` and `b` are the operand bytes, each used whole (R91): a register operand is the register's index, no bits masked
off, so 8 to 255 are encodable and name no register (R94); the one immediate is `imm` of LOAD_IMMEDIATE (R95). -/

namespace Sys2Proof

/-- The fourteen instructions of R2. -/
inductive Instr where
  /-- ADD a b (R121): `a` is destination and first source, `b` second source. -/
  | add (a b : Byte)
  /-- MULTIPLY a b (R122): two source registers. -/
  | multiply (a b : Byte)
  /-- COMPARE a b (R123): two source registers. -/
  | compare (a b : Byte)
  /-- LOAD_IMMEDIATE a imm (R140): destination register and immediate byte. -/
  | loadImmediate (a imm : Byte)
  /-- STORE a b (R141): `a` is the source register, `b` the destination register. -/
  | store (a b : Byte)
  /-- PUSH a (R153). -/
  | push (a : Byte)
  /-- POP a (R154). -/
  | pop (a : Byte)
  /-- CALL a (R160). -/
  | call (a : Byte)
  /-- RETURN (R161). -/
  | ret
  /-- JUMP a (R170). -/
  | jump (a : Byte)
  /-- JUMP_IF_EQUAL a (R171). -/
  | jumpIfEqual (a : Byte)
  /-- JUMP_IF_NOT_EQUAL a (R172). -/
  | jumpIfNotEqual (a : Byte)
  /-- PRINT_REGISTER a (R180). -/
  | printRegister (a : Byte)
  /-- HALT (R181). -/
  | halt
  deriving DecidableEq, Repr

end Sys2Proof
end

