-- ==== Sys2Proof/Machine/Dispatch.lean ====
section
/-! DEFINITION. Step 5 of the dispatch cycle (30_encoding.md R98): one arm per instruction. -/

namespace Sys2Proof.Machine

-- `exec` is the instruction's own rule; that the core is RUNNING is tested by `step` (R98; log 24).
def exec (i : Instr) (s : State) : Host.Outcome State Fault Refusal :=
  match i with
  | .add a b => Sys2Proof.Machine.execAdd a b s
  | .multiply a b => Sys2Proof.Machine.execMultiply a b s
  | .compare a b => Sys2Proof.Machine.execCompare a b s
  | .loadImmediate a imm => Sys2Proof.Machine.execLoadImmediate a imm s
  | .store a b => Sys2Proof.Machine.execStore a b s
  | .push a => Sys2Proof.Machine.execPush a s
  | .pop a => Sys2Proof.Machine.execPop a s
  | .call a => Sys2Proof.Machine.execCall a s
  | .ret => Sys2Proof.Machine.execReturn s
  | .jump a => Sys2Proof.Machine.execJump a s
  | .jumpIfEqual a => Sys2Proof.Machine.execJumpIfEqual a s
  | .jumpIfNotEqual a => Sys2Proof.Machine.execJumpIfNotEqual a s
  | .printRegister a => Sys2Proof.Machine.execPrintRegister a s
  | .halt => Sys2Proof.Machine.execHalt s

end Sys2Proof.Machine
end

