-- ==== Sys2Proof/Machine/Fields.lean ====
section
/-! DEFINITION. The fields of an instruction's bytes: the operand count in bits 7:6 of the opcode byte, the opcode byte
of each operation, and the operation and operand bytes of each instruction (30_encoding.md R91 to R96). -/

namespace Sys2Proof

/-- The field `NOPS` = `op[7:6]` of an opcode byte: how many operand bytes follow (R92). -/
def operandCount (op : Byte) : Nat := (op >>> 6).toNat

/-- The length in bytes of an instruction whose opcode byte is `op`: `op[7:6] + 1` (R93). -/
def instrLength (op : Byte) : Nat := operandCount op + 1

/-- All fourteen operations, in the order of R96's table. -/
def Operation.all : List Operation :=
  [.add, .multiply, .compare, .loadImmediate, .store, .push, .pop, .call, .ret, .jump, .jumpIfEqual,
   .jumpIfNotEqual, .printRegister, .halt]

/-- How many operand bytes an operation's rule uses: formats F0, F1, F2 of R91. -/
def Operation.arity : Operation → Nat
  | .add => 2
  | .multiply => 2
  | .compare => 2
  | .loadImmediate => 2
  | .store => 2
  | .push => 1
  | .pop => 1
  | .call => 1
  | .ret => 0
  | .jump => 1
  | .jumpIfEqual => 1
  | .jumpIfNotEqual => 1
  | .printRegister => 1
  | .halt => 0

/-- The opcode byte a table gives an operation (R96). -/
def Opcodes.byteOf (t : Opcodes) : Operation → Byte
  | .add => t.add
  | .multiply => t.multiply
  | .compare => t.compare
  | .loadImmediate => t.loadImmediate
  | .store => t.store
  | .push => t.push
  | .pop => t.pop
  | .call => t.call
  | .ret => t.ret
  | .jump => t.jump
  | .jumpIfEqual => t.jumpIfEqual
  | .jumpIfNotEqual => t.jumpIfNotEqual
  | .printRegister => t.printRegister
  | .halt => t.halt

/-- The operation an instruction belongs to. -/
def Instr.operation : Instr → Operation
  | .add _ _ => .add
  | .multiply _ _ => .multiply
  | .compare _ _ => .compare
  | .loadImmediate _ _ => .loadImmediate
  | .store _ _ => .store
  | .push _ => .push
  | .pop _ => .pop
  | .call _ => .call
  | .ret => .ret
  | .jump _ => .jump
  | .jumpIfEqual _ => .jumpIfEqual
  | .jumpIfNotEqual _ => .jumpIfNotEqual
  | .printRegister _ => .printRegister
  | .halt => .halt

/-- The operand bytes of an instruction, first operand first: the byte at `pc + 1`, then the byte at `pc + 2` (R91). -/
def Instr.operands : Instr → List Byte
  | .add a b => [a, b]
  | .multiply a b => [a, b]
  | .compare a b => [a, b]
  | .loadImmediate a imm => [a, imm]
  | .store a b => [a, b]
  | .push a => [a]
  | .pop a => [a]
  | .call a => [a]
  | .ret => []
  | .jump a => [a]
  | .jumpIfEqual a => [a]
  | .jumpIfNotEqual a => [a]
  | .printRegister a => [a]
  | .halt => []

end Sys2Proof
end

