-- ==== Sys2Proof/WellFormed.lean ====
section
/-! DEFINITION. What is checked of a configuration (00_scope.md R7) and of an instruction in a configuration.
Operand bytes have no illegal values (R99), so an instruction's own check is that its opcode byte can be decoded. -/

namespace Sys2Proof

/-- The opcode table's constraints of R7: the fourteen bytes are pairwise distinct, and bits 7:6 of each equal the number
of operand bytes the instruction has. -/
abbrev Opcodes.Valid (t : Opcodes) : Prop :=
  (Operation.all.map t.byteOf).Nodup ∧ ∀ k ∈ Operation.all, operandCount (t.byteOf k) = k.arity

/-- The constraints of R7 on the parameters. The last conjunct (the three flags have three positions) is not in R7.
DEDUCED: R30 describes three separate bits (log 7). -/
abbrev Config.Valid (c : Config) : Prop :=
  1 ≤ c.memCapacity ∧ c.memCapacity ≤ 256 ∧
  c.vectorTableSize ≤ c.memCapacity - 1 ∧
  c.stackLimit ≤ 255 ∧
  c.opcodes.Valid ∧
  (c.flE ≠ c.flG ∧ c.flE ≠ c.flL ∧ c.flG ≠ c.flL)

/-- An instruction is well formed in a configuration when the configuration's opcode table can encode it: bits 7:6 of its
opcode byte count its operands (R93), and no other operation has that byte (R97). -/
abbrev Instr.WellFormed (c : Config) (i : Instr) : Prop :=
  operandCount (c.opcodes.byteOf i.operation) = i.operands.length ∧
  ∀ k ∈ Operation.all, c.opcodes.byteOf k = c.opcodes.byteOf i.operation → k = i.operation

end Sys2Proof
end

