-- ==== Sys2Proof/Decode.lean ====
section
/-! DEFINITION. The decoder, total on any bytes and rejecting by name, and after it the encoder, both from the tables of
30_encoding.md (R91 to R99). The decoder matches the whole opcode byte (R97) and takes the length from bits 7:6 of it and
from nothing else (R93, R101); it never looks at bits 5:4 (R100). -/

namespace Sys2Proof

/-- Why bytes do not decode. -/
inductive DecodeError where
  /-- Only `present` bytes are there and the instruction needs another one (R98 steps 1 and 4). -/
  | truncated (present : Nat)
  /-- The byte is none of the fourteen opcodes (R99). -/
  | unknownOpcode (op : Byte)
  /-- The opcode table breaks R7: bits 7:6 of this opcode do not count its operation's operands (log 21). -/
  | operandMismatch (op : Byte)
  deriving DecidableEq, Repr

/-- The operation an opcode byte selects: a match of the whole byte against the fourteen values (R97). -/
def lookupOpcode (t : Opcodes) (op : Byte) : Option Operation :=
  Operation.all.find? fun k => t.byteOf k == op

/-- An F0 instruction takes no operand byte. -/
def withNoOperand (i : Instr) : List Byte → Option Instr
  | [] => some i
  | _ :: _ => none

/-- An F1 instruction takes one operand byte, `a`. -/
def withOneOperand (f : Byte → Instr) : List Byte → Option Instr
  | [a] => some (f a)
  | [] => none
  | _ :: _ :: _ => none

/-- An F2 instruction takes two operand bytes, `a` then `b`. -/
def withTwoOperands (f : Byte → Byte → Instr) : List Byte → Option Instr
  | [a, b] => some (f a b)
  | [] => none
  | [_] => none
  | _ :: _ :: _ :: _ => none

/-- The instruction of an operation with the given operand bytes, by its format (R91). -/
def buildInstr : Operation → List Byte → Option Instr
  | .add => withTwoOperands .add
  | .multiply => withTwoOperands .multiply
  | .compare => withTwoOperands .compare
  | .loadImmediate => withTwoOperands .loadImmediate
  | .store => withTwoOperands .store
  | .push => withOneOperand .push
  | .pop => withOneOperand .pop
  | .call => withOneOperand .call
  | .ret => withNoOperand .ret
  | .jump => withOneOperand .jump
  | .jumpIfEqual => withOneOperand .jumpIfEqual
  | .jumpIfNotEqual => withOneOperand .jumpIfNotEqual
  | .printRegister => withOneOperand .printRegister
  | .halt => withNoOperand .halt

/-- Decode the instruction that the bytes begin with, and return the bytes after it. The order of the checks is that of
R98: an opcode byte, then the table, then the operand bytes. -/
def decode (c : Config) : List Byte → Except DecodeError (Instr × List Byte)
  | [] => .error (.truncated 0)
  | op :: rest =>
    match lookupOpcode c.opcodes op with
    | none => .error (.unknownOpcode op)
    | some k =>
      if operandCount op ≠ k.arity then .error (.operandMismatch op)
      else if rest.length < operandCount op then .error (.truncated (rest.length + 1))
      else
        match buildInstr k (rest.take (operandCount op)) with
        | none => .error (.operandMismatch op)
        | some i => .ok (i, rest.drop (operandCount op))

/-- The bytes of an instruction in ascending address order, opcode first (R66, R91). -/
def encode (c : Config) (i : Instr) : List Byte := c.opcodes.byteOf i.operation :: i.operands

/-- The three bytes an opcode-table word stands for: byte `k` is bits 8k+7 to 8k, and every bit from `nbits` up is 0.
An instruction has at most three bytes (R90). -/
def tableBytes (nbits w : Nat) : List Byte :=
  let v := w % 2 ^ nbits
  [BitVec.ofNat 8 v, BitVec.ofNat 8 (v / 256), BitVec.ofNat 8 (v / 65536)]

/-- The instruction the decoder reads from an opcode-table word, in the reference configuration. -/
def decodeTableWord (nbits w : Nat) : Option Instr :=
  match decode Config.reference (tableBytes nbits w) with
  | .ok (i, _) => some i
  | .error _ => none

end Sys2Proof
end

