-- ==== Sys2Proof/Machine/Fetch.lean ====
section
/-! DEFINITION. Fetching: steps 1 to 4 of the dispatch cycle (30_encoding.md R98), on the same memory the stack writes, afresh
at every cycle (R74). -/

namespace Sys2Proof.Machine

/-- The bytes at `addr`, `addr + 1`, …, at most `n` of them, as far as `MemRead` gives one. -/
def readBytes (s : State) : Nat → Nat → List Byte
  | 0, _ => []
  | n + 1, addr =>
    match memRead s addr with
    | .ok v => v :: readBytes s n (addr + 1)
    | .error _ => []

/-- The bytes an instruction at `pc` can have: at most three (R90), fewer where memory ends. Looking at a byte the
instruction turns out not to have is no access of it: a read has no effect (R62), and the decoder takes the length from the
opcode byte alone (R93). -/
def fetchWindow (s : State) : List Byte := readBytes s 3 s.pc

/-- The instruction at `pc`: the decoder applied to the bytes there. -/
def fetchInstr (s : State) : Except DecodeError Instr :=
  match decode s.cfg (fetchWindow s) with
  | .ok (i, _) => .ok i
  | .error e => .error e

/-- What the cycle does when no instruction can be fetched: OutOfBounds at the first byte that memory does not have,
UnknownOpcode, or (outside R7) a refusal (R98 steps 1, 3, 4; R209). -/
def fetchStop (e : DecodeError) (s : State) : Host.Outcome State Fault Refusal :=
  match e with
  | .truncated present => .next (raiseFault (.outOfBounds (s.pc + present)) s)
  | .unknownOpcode op => .next (raiseFault (.unknownOpcode op) s)
  | .operandMismatch op => .refused (.illFormedOpcodeTable op)

/-- Store bytes at consecutive addresses, leaving out those beyond memory. -/
def placeBytes (s : State) (addr : Nat) : List Byte → State
  | [] => s
  | v :: vs =>
    match memWrite s addr v with
    | .ok t => placeBytes t (addr + 1) vs
    | .error _ => s

/-- The state whose next step fetches the given bytes at its `pc`: the bytes placed there and the core RUNNING (log 20). -/
def placeAtPc (s : State) (bytes : List Byte) : State := { placeBytes s s.pc bytes with status := .running }

end Sys2Proof.Machine
end

