-- ==== Sys2Proof/Machine/Step.lean ====
section
/-! DEFINITION. One dispatch cycle (30_encoding.md R98): performed when and only when the status is RUNNING. -/

namespace Sys2Proof.Machine

/-- One step of the core: fetch, decode, execute one whole instruction, atomically (R98). From an ended run nothing
happens (R34). -/
def step (s : State) : Host.Outcome State Fault Refusal :=
  match s.status with
  | .running =>
    match fetchInstr s with
    | .ok i => exec i s
    | .error e => fetchStop e s
  | .halted => endedStep s
  | .faulted _ => endedStep s

/-- The state whose very next step runs the instruction of an opcode-table word: its bytes stored at `pc` and the core
RUNNING (log 20). -/
def State.withFetchWord (s : State) (nbits w : Nat) : State := placeAtPc s (tableBytes nbits w)

end Sys2Proof.Machine
end

