-- ==== Sys2Proof/Machine/HostPort.lean ====
section
/-! DEFINITION. The host's side of the boundary (10_state.md R36, 70_reset_and_hazards.md R240 to R250): reset, load, the two
output channels, and the read-only trace view the spec excludes from the core (R39). No step uses anything of this file. -/

namespace Sys2Proof.Machine

/-- The `reset` input, usable in any state: every piece of state takes its reset value (R240, R241). -/
def State.hostReset (s : State) : State := State.resetOf s.cfg

/-- Reset, then the `load` of an image at address 0 (R242): no state when the image is longer than memory, since such a
run never starts (D21; log 19). Loading twice or during a run cannot be expressed (R250). -/
def State.boot (c : Config) (image : List Byte) : Option State :=
  if image.length ≤ c.memCapacity then some (placeBytes (State.resetOf c) 0 image) else none

/-- What the observation sink received, in order: the payloads of the `Observe` events alone (R35). -/
def State.observed (s : State) : List Byte :=
  s.out.filterMap fun ev => match ev with | .observe v => some v | .mulResult _ => none

/-- What the result port received, in order: the payloads of the `MulResult` events (R35). -/
def State.products (s : State) : List Byte :=
  s.out.filterMap fun ev => match ev with | .observe _ => none | .mulResult v => some v

/-- A snapshot of the trace interface (R39). -/
structure Trace where
  /-- The program counter. -/
  pc : Nat
  /-- The bytes at `pc`, `pc + 1`, `pc + 2`; none where the address is outside memory (N15; log 22). -/
  bytes : List (Option Byte)
  /-- All eight general registers. -/
  regs : Vector Byte 8
  deriving DecidableEq, Repr

/-- One byte as the trace shows it: it never faults. -/
def traceByte (s : State) (addr : Nat) : Option Byte :=
  match memRead s addr with
  | .ok v => some v
  | .error _ => none

/-- The read-only view of R39: it reads state and changes none. -/
def State.trace (s : State) : Trace where
  pc := s.pc
  bytes := [traceByte s s.pc, traceByte s (s.pc + 1), traceByte s (s.pc + 2)]
  regs := s.regs

end Sys2Proof.Machine
end

