-- ==== Sys2Proof/Safety.lean ====
section
/-! DEFINITION. The terms claims are stated in: ended runs, the invariant of the machine, what a fault's record says, and the
tables of what each instruction writes (10_state.md R25, R29, R31, R35). -/

namespace Sys2Proof.Machine

/-- The run has ended: HALTED or FAULTED (R245). -/
abbrev State.Ended (s : State) : Prop := s.status ≠ .running

/-- FL holds no bit but E, G and L (R30: the other bits are always 0). -/
abbrev State.FlagsReserved (s : State) : Prop :=
  ∀ p : Fin 8, p ≠ s.cfg.flE → p ≠ s.cfg.flG → p ≠ s.cfg.flL → flagBit s.fl p = false

/-- Unless flags are sticky, at most one of E, G, L is set: none before the first COMPARE, exactly one after it (R31). -/
abbrev State.FlagsExclusive (s : State) : Prop :=
  s.cfg.flagsSticky = false →
    (s.flagE = false ∨ s.flagG = false) ∧ (s.flagE = false ∨ s.flagL = false) ∧ (s.flagG = false ∨ s.flagL = false)

/-- The push primitive's two overflow tests, on the unreduced integer `SP - 1` (R151). -/
abbrev State.PushOverflows (s : State) : Prop :=
  (s.sp.toNat : Int) - 1 < (s.cfg.stackLimit : Int) ∨ (s.sp.toNat : Int) - 1 = (s.pc : Int)

/-- The pop primitive's underflow test (R152). -/
abbrev State.PopUnderflows (s : State) : Prop := s.sp.toNat + 1 ≥ s.cfg.memCapacity

/-- What holds of the machine between any two steps. `pc` is at most MEM_CAPACITY or a byte a transfer loaded (R26, R28);
memory is canonical and lists only cells that exist (R60). -/
abbrev State.Inv (s : State) : Prop :=
  s.cfg.Valid ∧ s.mem.wf ∧ (∀ p ∈ s.mem, p.1 < s.cfg.memCapacity) ∧
  (s.pc ≤ s.cfg.memCapacity ∨ s.pc ≤ 255) ∧ s.FlagsReserved ∧ s.FlagsExclusive

/-- What the record of a fault says of the state that holds it (R201, column info; R202 to R207): the address is outside
memory, the index names no register, the byte is no opcode and stands at `pc`, the stack tests of R151 and R152 fail on
the stack pointer, which the fault has left unchanged. -/
def FaultRecordTrue (s : State) : Fault → Prop
  | .outOfBounds addr => s.cfg.memCapacity ≤ addr
  | .invalidRegister i => 8 ≤ i.toNat
  | .unsupportedAluOp => False
  | .unknownOpcode op =>
    (∀ k ∈ Operation.all, s.cfg.opcodes.byteOf k ≠ op) ∧ s.pc < s.cfg.memCapacity ∧ s.mem.read s.pc = op
  | .stackOverflow sp => sp = s.sp ∧ (sp.toNat ≤ s.cfg.stackLimit ∨ sp.toNat = s.pc + 1)
  | .stackUnderflow sp => sp = s.sp ∧ s.cfg.memCapacity ≤ sp.toNat + 1

/-- If the state is FAULTED, the fault's record is true of it. -/
def State.FaultRecorded (s : State) : Prop := ∀ f, s.status = .faulted f → FaultRecordTrue s f

end Sys2Proof.Machine

namespace Sys2Proof

open Sys2Proof.Machine

/-- The table of R25: whether an instruction writes register `j`, by operand or implicitly. -/
def Instr.writesReg (c : Config) (i : Instr) (j : Fin 8) : Prop :=
  match i with
  | .add a _ => j.val = a.toNat
  | .multiply _ _ => False
  | .compare _ _ => False
  | .loadImmediate a _ => j.val = a.toNat
  | .store _ b => j.val = b.toNat
  | .push _ => j = c.spIndex
  | .pop a => j.val = a.toNat ∨ j = c.spIndex
  | .call _ => j = c.spIndex
  | .ret => j = c.spIndex
  | .jump _ => False
  | .jumpIfEqual _ => False
  | .jumpIfNotEqual _ => False
  | .printRegister _ => False
  | .halt => False

/-- The instructions that store to memory: PUSH and CALL and no other (R65). -/
def Instr.stores : Instr → Bool
  | .add _ _ => false
  | .multiply _ _ => false
  | .compare _ _ => false
  | .loadImmediate _ _ => false
  | .store _ _ => false
  | .push _ => true
  | .pop _ => false
  | .call _ => true
  | .ret => false
  | .jump _ => false
  | .jumpIfEqual _ => false
  | .jumpIfNotEqual _ => false
  | .printRegister _ => false
  | .halt => false

/-- Whether an instruction, in a state, ends by setting `pc` to an explicit target or (HALT) leaves it, and so does not
advance by its length (R27, R29). -/
def Instr.setsPc (i : Instr) (s : State) : Bool :=
  match i with
  | .add _ _ => false
  | .multiply _ _ => false
  | .compare _ _ => false
  | .loadImmediate _ _ => false
  | .store _ _ => false
  | .push _ => false
  | .pop _ => false
  | .call _ => true
  | .ret => true
  | .jump _ => true
  | .jumpIfEqual _ => s.flagE
  | .jumpIfNotEqual _ => !s.flagE
  | .printRegister _ => false
  | .halt => true

/-- The event an instruction emits, if its register accesses succeed (R35): PRINT_REGISTER and MULTIPLY emit one, no other
instruction emits any. -/
def Instr.event (i : Instr) (s : State) : Option Event :=
  match i with
  | .add _ _ => none
  | .multiply a b =>
    match readReg s a, readReg s b with
    | .ok va, .ok vb => some (.mulResult (va * vb))
    | .ok _, .error _ => none
    | .error _, _ => none
  | .compare _ _ => none
  | .loadImmediate _ _ => none
  | .store _ _ => none
  | .push _ => none
  | .pop _ => none
  | .call _ => none
  | .ret => none
  | .jump _ => none
  | .jumpIfEqual _ => none
  | .jumpIfNotEqual _ => none
  | .printRegister a =>
    match readReg s a with
    | .ok v => some (.observe v)
    | .error _ => none
  | .halt => none

/-- The operand bytes an instruction accesses as registers, in the order of the accesses (R94, R25): a conditional jump
accesses its register only when it is taken (R171, R172). -/
def Instr.accesses (i : Instr) (s : State) : List Byte :=
  match i with
  | .add a b => [a, b]
  | .multiply a b => [a, b]
  | .compare a b => [a, b]
  | .loadImmediate a _ => [a]
  | .store a b => [a, b]
  | .push a => [a]
  | .pop a => [a]
  | .call a => [a]
  | .ret => []
  | .jump a => [a]
  | .jumpIfEqual a => if s.flagE then [a] else []
  | .jumpIfNotEqual a => if s.flagE then [] else [a]
  | .printRegister a => [a]
  | .halt => []

end Sys2Proof

namespace Sys2Proof.Machine

/-- The bytes of an instruction stand in memory from an address on. -/
def HoldsInstr (s : State) (addr : Nat) (i : Instr) : Prop :=
  ∀ k (h : k < (encode s.cfg i).length), memRead s (addr + k) = .ok (encode s.cfg i)[k]

/-- One instruction executed `n` times in a row, stopping at the first that does not leave the core RUNNING. -/
def execTimes (i : Instr) : Nat → State → Host.Outcome State Fault Refusal
  | 0, s => .next s
  | n + 1, s =>
    match exec i s with
    | .next t => if t.status = .running then execTimes i n t else .next t
    | .fault r => .fault r
    | .refused r => .refused r

end Sys2Proof.Machine
end

