-- ==== Sys2Proof/Certificates/Slice0/Obligations.lean ====
section
/-! DEFINITION. The statements for the provers. A statement "for every state" holds for every configuration too, since the
configuration stands in the state (log 1); where it needs R7's constraints it says `Valid` or `Inv`. -/

open Sys2Proof Sys2Proof.Machine

/-! ### Encoding and decoding -/

/-- 30_encoding.md section 3 (R96; the values are the spec's D18, log 3): one word of each instruction and some of the
illegal bytes of the spec's vectors B13, in the reference configuration. -/
def Obligations.DecodesWrittenOutWords : Prop :=
  decode Config.reference [0b10100000, 0x00, 0x01] = .ok (.add 0 1, []) ∧
  decode Config.reference [0b10100010, 0x02, 0xFF] = .ok (.multiply 2 255, []) ∧
  decode Config.reference [0b10100111, 0x07, 0x00] = .ok (.compare 7 0, []) ∧
  decode Config.reference [0b10000010, 0x00, 0x08] = .ok (.loadImmediate 0 8, []) ∧
  decode Config.reference [0b10000100, 0x01, 0x02] = .ok (.store 1 2, []) ∧
  decode Config.reference [0b01000101, 0x03] = .ok (.push 3, []) ∧
  decode Config.reference [0b01000110, 0x04] = .ok (.pop 4, []) ∧
  decode Config.reference [0b01010000, 0x02] = .ok (.call 2, []) ∧
  decode Config.reference [0b00010001] = .ok (.ret, []) ∧
  decode Config.reference [0b01010100, 0x03] = .ok (.jump 3, []) ∧
  decode Config.reference [0b01010101, 0x03] = .ok (.jumpIfEqual 3, []) ∧
  decode Config.reference [0b01010110, 0x03] = .ok (.jumpIfNotEqual 3, []) ∧
  decode Config.reference [0b01000111, 0x00, 0x01] = .ok (.printRegister 0, [0x01]) ∧
  decode Config.reference [0b00000001, 0x99] = .ok (.halt, [0x99]) ∧
  decode Config.reference [0x00, 0x00] = .error (.unknownOpcode 0x00) ∧
  decode Config.reference [0xC0] = .error (.unknownOpcode 0xC0) ∧
  decode Config.reference [0xA8, 0, 0] = .error (.unknownOpcode 0xA8)

/-- 30_encoding.md sections 1 to 3: decoding the bytes of a well-formed instruction, whatever follows them, gives the
instruction back with every operand, and what follows. -/
def Obligations.DecodeInvertsEncode : Prop :=
  ∀ (c : Config) (i : Instr) (rest : List Byte), i.WellFormed c → decode c (encode c i ++ rest) = .ok (i, rest)

/-- 30_encoding.md sections 1 to 3: bytes that decode are the encoding of what they decode to; no second word of an
instruction exists and no bit is ignored. -/
def Obligations.EncodeInvertsDecode : Prop :=
  ∀ (c : Config) (bytes rest : List Byte) (i : Instr), decode c bytes = .ok (i, rest) → bytes = encode c i ++ rest

/-- 00_scope.md section 4 (R7): under a valid configuration every instruction, with every operand byte, is well formed. -/
def Obligations.ValidConfigurationEncodesEveryInstruction : Prop :=
  ∀ c : Config, c.Valid → ∀ i : Instr, i.WellFormed c

/-- R93: the length is `op[7:6] + 1`; decoding consumes exactly that many bytes; the table's `op[7:6]` count the operands;
and an instruction that completes without setting `pc` explicitly advances it by that length. -/
def Obligations.LengthComesFromTopBits : Prop :=
  (∀ op : Byte, instrLength op = op.toNat / 64 % 4 + 1) ∧
  (∀ (c : Config) (op : Byte) (bytes rest : List Byte) (i : Instr), decode c (op :: bytes) = .ok (i, rest) →
    (op :: bytes).length = instrLength op + rest.length ∧ instrLength op = i.operands.length + 1) ∧
  (∀ (i : Instr) (s t : State), s.cfg.Valid → s.status = .running → exec i s = .next t → t.status = .running →
    i.setsPc s = false → t.pc = s.pc + instrLength (s.cfg.opcodes.byteOf i.operation))

/-- 30_encoding.md section 5, 60_exceptions.md section 1 (R99, R205): exactly 242 byte values are no opcode, whatever the
valid opcode table, and a RUNNING core that meets one takes UnknownOpcode, whether or not operand bytes follow. -/
def Obligations.UnknownOpcodeBytesFault : Prop :=
  (∀ c : Config, c.Valid →
    ((List.range 256).filter fun n =>
      decide (∀ k ∈ Operation.all, c.opcodes.byteOf k ≠ BitVec.ofNat 8 n)).length = 242) ∧
  (∀ s : State, s.status = .running → s.pc < s.cfg.memCapacity →
    (∀ k ∈ Operation.all, s.cfg.opcodes.byteOf k ≠ s.mem.read s.pc) →
    step s = .next { s with status := .faulted (.unknownOpcode (s.mem.read s.pc)) })

/-! ### Memory and registers -/

/-- R62. -/
def Obligations.MemReadChecksBounds : Prop :=
  ∀ (s : State) (addr : Nat),
    (addr < s.cfg.memCapacity → memRead s addr = .ok (s.mem.read addr)) ∧
    (s.cfg.memCapacity ≤ addr → memRead s addr = .error (.outOfBounds addr))

/-- 20_memory.md section 2 (R63): the written cell reads as the byte written, every other cell as before, and nothing else
changes. That memory is canonical before and after is the model's own form, which the spec does not know (DESIGN CHOICE,
log 23). -/
def Obligations.MemWriteReplacesOneCell : Prop :=
  ∀ (s : State) (addr : Nat) (v : Byte), s.mem.wf →
    (addr < s.cfg.memCapacity →
      ∃ t, memWrite s addr v = .ok t ∧ t.mem.read addr = v ∧ (∀ b, b ≠ addr → t.mem.read b = s.mem.read b) ∧
        t = { s with mem := t.mem } ∧ t.mem.wf) ∧
    (s.cfg.memCapacity ≤ addr → memWrite s addr v = .error (.outOfBounds addr))

/-- Log 23 (the model's own representation): two canonical memories that read alike everywhere are one and the same. -/
def Obligations.CanonicalMemoryIsDetermined : Prop :=
  ∀ m n : Memory, m.wf → n.wf → (∀ a, m.read a = n.read a) → m = n

/-- 10_state.md section 2 (R22, R23; the range and the stack pointer's place are the spec's D4): a register access outside
0 to 7 faults and changes nothing, a write changes the named register alone, and `SP` is that register. -/
def Obligations.RegisterAccessIsChecked : Prop :=
  ∀ (s : State) (i v : Byte),
    (8 ≤ i.toNat → readReg s i = .error (.invalidRegister i) ∧ writeReg s i v = .error (.invalidRegister i)) ∧
    (i.toNat < 8 →
      ∃ t, writeReg s i v = .ok t ∧ readReg t i = .ok v ∧
        (∀ j : Byte, j.toNat < 8 → j ≠ i → readReg t j = readReg s j) ∧ t = { s with regs := t.regs } ∧
        (i.toNat = s.cfg.spIndex.val → readReg s i = .ok s.sp ∧ t.sp = v ∧ t = s.setSp v) ∧
        (i.toNat ≠ s.cfg.spIndex.val → t.sp = s.sp))

/-! ### The instructions: result, faults, and that each completes

The encoding clauses name the configuration's `OPC_<name>` (R6); their reference values stand in
`DecodesWrittenOutWords`. A next state written out as `{ s with … }` says the whole frame of the instruction too. -/

/-- 40_alu.md section 2, ADD a b. -/
def Obligations.AddWrapsIntoFirstRegister : Prop :=
  ∀ (a b : Byte) (s : State),
    encode s.cfg (.add a b) = [s.cfg.opcodes.add, a, b] ∧
    (∀ (ha : a.toNat < 8) (hb : b.toNat < 8),
      exec (.add a b) s = .next { s with
        regs := s.regs.set a.toNat (BitVec.ofNat 8 ((s.regs[a.toNat].toNat + s.regs[b.toNat].toNat) % 256))
        pc := s.pc + 3 }) ∧
    (8 ≤ a.toNat → exec (.add a b) s = .next { s with status := .faulted (.invalidRegister a) }) ∧
    (a.toNat < 8 → 8 ≤ b.toNat → exec (.add a b) s = .next { s with status := .faulted (.invalidRegister b) })

/-- 40_alu.md section 2, MULTIPLY a b (the result port is the spec's D13): the product mod 256 is emitted and kept nowhere. -/
def Obligations.MultiplyEmitsProduct : Prop :=
  ∀ (a b : Byte) (s : State),
    encode s.cfg (.multiply a b) = [s.cfg.opcodes.multiply, a, b] ∧
    (∀ (ha : a.toNat < 8) (hb : b.toNat < 8),
      exec (.multiply a b) s = .next { s with
        out := s.out ++ [.mulResult (BitVec.ofNat 8 ((s.regs[a.toNat].toNat * s.regs[b.toNat].toNat) % 256))]
        pc := s.pc + 3 }) ∧
    (8 ≤ a.toNat → exec (.multiply a b) s = .next { s with status := .faulted (.invalidRegister a) }) ∧
    (a.toNat < 8 → 8 ≤ b.toNat → exec (.multiply a b) s = .next { s with status := .faulted (.invalidRegister b) })

/-- 40_alu.md section 2, COMPARE a b (the parameter FLAGS_STICKY is the spec's D6): E, G, L report the unsigned comparison;
an old condition bit survives only when flags are sticky; no other bit of FL and nothing but `pc` changes. -/
def Obligations.CompareSetsOneCondition : Prop :=
  ∀ (a b : Byte) (s : State), s.cfg.Valid →
    encode s.cfg (.compare a b) = [s.cfg.opcodes.compare, a, b] ∧
    (∀ (ha : a.toNat < 8) (hb : b.toNat < 8),
      ∃ t, exec (.compare a b) s = .next t ∧ t = { s with fl := t.fl, pc := s.pc + 3 } ∧
        (t.flagE = true ↔
          s.regs[a.toNat].toNat = s.regs[b.toNat].toNat ∨ (s.cfg.flagsSticky = true ∧ s.flagE = true)) ∧
        (t.flagG = true ↔
          s.regs[b.toNat].toNat < s.regs[a.toNat].toNat ∨ (s.cfg.flagsSticky = true ∧ s.flagG = true)) ∧
        (t.flagL = true ↔
          s.regs[a.toNat].toNat < s.regs[b.toNat].toNat ∨ (s.cfg.flagsSticky = true ∧ s.flagL = true)) ∧
        (∀ p : Fin 8, p ≠ s.cfg.flE → p ≠ s.cfg.flG → p ≠ s.cfg.flL → flagBit t.fl p = flagBit s.fl p)) ∧
    (8 ≤ a.toNat → exec (.compare a b) s = .next { s with status := .faulted (.invalidRegister a) }) ∧
    (a.toNat < 8 → 8 ≤ b.toNat → exec (.compare a b) s = .next { s with status := .faulted (.invalidRegister b) })

/-- R140: LOAD_IMMEDIATE, with the opcode byte the source gives, its register fault, the fault of an operand byte beyond
memory, and the source's property: followed by PRINT_REGISTER of the same register it emits the value. -/
def Obligations.LoadImmediateWritesRegister : Prop :=
  (∀ (a imm : Byte) (s : State),
    encode s.cfg (.loadImmediate a imm) = [s.cfg.opcodes.loadImmediate, a, imm] ∧
    encode Config.reference (.loadImmediate a imm) = [0b10000010, a, imm] ∧
    (∀ ha : a.toNat < 8,
      exec (.loadImmediate a imm) s = .next { s with regs := s.regs.set a.toNat imm, pc := s.pc + 3 }) ∧
    (8 ≤ a.toNat → exec (.loadImmediate a imm) s = .next { s with status := .faulted (.invalidRegister a) })) ∧
  (∀ s : State, s.cfg.Valid → s.status = .running → s.pc < s.cfg.memCapacity →
    s.mem.read s.pc = s.cfg.opcodes.loadImmediate →
    (s.pc + 1 = s.cfg.memCapacity → step s = .next { s with status := .faulted (.outOfBounds (s.pc + 1)) }) ∧
    (s.pc + 2 = s.cfg.memCapacity → step s = .next { s with status := .faulted (.outOfBounds (s.pc + 2)) })) ∧
  (∀ (s : State) (r v : Byte), s.cfg.Valid → s.status = .running → r.toNat < 8 →
    HoldsInstr s s.pc (.loadImmediate r v) → HoldsInstr s (s.pc + 3) (.printRegister r) →
    ∃ t, Host.Core.run Sys2Proof.core 2 s = .next t ∧ t.out = s.out ++ [.observe v] ∧ t.pc = s.pc + 5 ∧
      t.status = .running)

/-- 41_data_move.md, STORE a b (the order of the two checks is the spec's D14): `x[b]` takes the value of `x[a]`; no memory
is written. -/
def Obligations.StoreCopiesFirstToSecond : Prop :=
  ∀ (a b : Byte) (s : State),
    encode s.cfg (.store a b) = [s.cfg.opcodes.store, a, b] ∧
    (∀ (ha : a.toNat < 8) (hb : b.toNat < 8),
      exec (.store a b) s = .next { s with regs := s.regs.set b.toNat s.regs[a.toNat], pc := s.pc + 3 }) ∧
    (8 ≤ a.toNat → exec (.store a b) s = .next { s with status := .faulted (.invalidRegister a) }) ∧
    (a.toNat < 8 → 8 ≤ b.toNat → exec (.store a b) s = .next { s with status := .faulted (.invalidRegister b) })

/-- 42_stack.md sections 1 and 2, PUSH a (the tests are the spec's D8, the order D14, PUSH of the stack pointer D11). -/
def Obligations.PushStoresBelowStackPointer : Prop :=
  ∀ (a : Byte) (s : State),
    encode s.cfg (.push a) = [s.cfg.opcodes.push, a] ∧
    (∀ ha : a.toNat < 8, ¬ s.PushOverflows → s.sp.toNat - 1 < s.cfg.memCapacity →
      exec (.push a) s = .next { s with
        regs := s.regs.set s.cfg.spIndex (BitVec.ofNat 8 (s.sp.toNat - 1))
        mem := s.mem.write (s.sp.toNat - 1)
          (if a.toNat = s.cfg.spIndex.val then BitVec.ofNat 8 (s.sp.toNat - 1) else s.regs[a.toNat])
        pc := s.pc + 2 }) ∧
    (s.PushOverflows → exec (.push a) s = .next { s with status := .faulted (.stackOverflow s.sp) }) ∧
    (¬ s.PushOverflows → 8 ≤ a.toNat → exec (.push a) s = .next { s with status := .faulted (.invalidRegister a) }) ∧
    (¬ s.PushOverflows → a.toNat < 8 → s.cfg.memCapacity ≤ s.sp.toNat - 1 →
      exec (.push a) s = .next { s with status := .faulted (.outOfBounds (s.sp.toNat - 1)) })

/-- 42_stack.md sections 1 and 2, POP a (the test is the spec's D9, POP into the stack pointer D11): another register takes
the byte and `SP` goes up by one; the stack pointer takes the byte plus one, mod 256. -/
def Obligations.PopLoadsFromStackPointer : Prop :=
  ∀ (a : Byte) (s : State),
    encode s.cfg (.pop a) = [s.cfg.opcodes.pop, a] ∧
    (∀ ha : a.toNat < 8, ¬ s.PopUnderflows → a.toNat ≠ s.cfg.spIndex.val →
      exec (.pop a) s = .next { s with
        regs := (s.regs.set a.toNat (s.mem.read s.sp.toNat)).set s.cfg.spIndex (BitVec.ofNat 8 (s.sp.toNat + 1))
        pc := s.pc + 2 }) ∧
    (¬ s.PopUnderflows → a.toNat = s.cfg.spIndex.val →
      exec (.pop a) s = .next { s with
        regs := s.regs.set s.cfg.spIndex (BitVec.ofNat 8 (((s.mem.read s.sp.toNat).toNat + 1) % 256))
        pc := s.pc + 2 }) ∧
    (s.PopUnderflows → exec (.pop a) s = .next { s with status := .faulted (.stackUnderflow s.sp) }) ∧
    (¬ s.PopUnderflows → 8 ≤ a.toNat → exec (.pop a) s = .next { s with status := .faulted (.invalidRegister a) })

/-- 43_subroutine.md, CALL a (the test is the spec's D10, the return address at 254 D12, CALL through the stack pointer
D11): the return address goes to the stack and control to the register. -/
def Obligations.CallPushesReturnAddress : Prop :=
  ∀ (a : Byte) (s : State),
    encode s.cfg (.call a) = [s.cfg.opcodes.call, a] ∧
    (∀ ha : a.toNat < 8, ¬ s.PushOverflows → s.sp.toNat - 1 < s.cfg.memCapacity →
      exec (.call a) s = .next { s with
        regs := s.regs.set s.cfg.spIndex (BitVec.ofNat 8 (s.sp.toNat - 1))
        mem := s.mem.write (s.sp.toNat - 1) (BitVec.ofNat 8 ((s.pc + 2) % 256))
        pc := if a.toNat = s.cfg.spIndex.val then s.sp.toNat - 1 else s.regs[a.toNat].toNat }) ∧
    (s.PushOverflows → exec (.call a) s = .next { s with status := .faulted (.stackOverflow s.sp) }) ∧
    (¬ s.PushOverflows → s.cfg.memCapacity ≤ s.sp.toNat - 1 →
      exec (.call a) s = .next { s with status := .faulted (.outOfBounds (s.sp.toNat - 1)) }) ∧
    (¬ s.PushOverflows → s.sp.toNat - 1 < s.cfg.memCapacity → 8 ≤ a.toNat →
      exec (.call a) s = .next { s with status := .faulted (.invalidRegister a) })

/-- 43_subroutine.md, RETURN (the test is the spec's D10). -/
def Obligations.ReturnPopsProgramCounter : Prop :=
  ∀ s : State,
    encode s.cfg .ret = [s.cfg.opcodes.ret] ∧
    (¬ s.PopUnderflows →
      exec .ret s = .next { s with
        regs := s.regs.set s.cfg.spIndex (BitVec.ofNat 8 (s.sp.toNat + 1))
        pc := (s.mem.read s.sp.toNat).toNat }) ∧
    (s.PopUnderflows → exec .ret s = .next { s with status := .faulted (.stackUnderflow s.sp) })

/-- 44_branch.md, JUMP a. A jump to its own address leaves the state as it is. -/
def Obligations.JumpGoesToRegister : Prop :=
  ∀ (a : Byte) (s : State),
    encode s.cfg (.jump a) = [s.cfg.opcodes.jump, a] ∧
    (∀ ha : a.toNat < 8,
      exec (.jump a) s = .next { s with pc := s.regs[a.toNat].toNat } ∧
      (s.regs[a.toNat].toNat = s.pc → exec (.jump a) s = .next s)) ∧
    (8 ≤ a.toNat → exec (.jump a) s = .next { s with status := .faulted (.invalidRegister a) })

/-- 44_branch.md, JUMP_IF_EQUAL a. Not taken, it accesses no register. -/
def Obligations.JumpIfEqualTestsE : Prop :=
  ∀ (a : Byte) (s : State),
    encode s.cfg (.jumpIfEqual a) = [s.cfg.opcodes.jumpIfEqual, a] ∧
    (s.flagE = false → exec (.jumpIfEqual a) s = .next { s with pc := s.pc + 2 }) ∧
    (s.flagE = true → ∀ ha : a.toNat < 8,
      exec (.jumpIfEqual a) s = .next { s with pc := s.regs[a.toNat].toNat }) ∧
    (s.flagE = true → 8 ≤ a.toNat →
      exec (.jumpIfEqual a) s = .next { s with status := .faulted (.invalidRegister a) })

/-- 44_branch.md, JUMP_IF_NOT_EQUAL a. Not taken, it accesses no register. -/
def Obligations.JumpIfNotEqualTestsE : Prop :=
  ∀ (a : Byte) (s : State),
    encode s.cfg (.jumpIfNotEqual a) = [s.cfg.opcodes.jumpIfNotEqual, a] ∧
    (s.flagE = true → exec (.jumpIfNotEqual a) s = .next { s with pc := s.pc + 2 }) ∧
    (s.flagE = false → ∀ ha : a.toNat < 8,
      exec (.jumpIfNotEqual a) s = .next { s with pc := s.regs[a.toNat].toNat }) ∧
    (s.flagE = false → 8 ≤ a.toNat →
      exec (.jumpIfNotEqual a) s = .next { s with status := .faulted (.invalidRegister a) })

/-- R180: PRINT_REGISTER, with the opcode byte the source gives. -/
def Obligations.PrintRegisterEmitsItsValue : Prop :=
  ∀ (a : Byte) (s : State),
    encode s.cfg (.printRegister a) = [s.cfg.opcodes.printRegister, a] ∧
    encode Config.reference (.printRegister a) = [0b01000111, a] ∧
    (∀ ha : a.toNat < 8,
      exec (.printRegister a) s = .next { s with out := s.out ++ [.observe s.regs[a.toNat]], pc := s.pc + 2 }) ∧
    (8 ≤ a.toNat → exec (.printRegister a) s = .next { s with status := .faulted (.invalidRegister a) })

/-- 45_system.md, HALT (that `pc` stays is the spec's D17; that further steps leave the state as it is, is the model's
choice, log 10): HALT sets the status and nothing else, and every run of at least one step from it ends there. -/
def Obligations.HaltEndsTheRun : Prop :=
  ∀ s : State,
    encode s.cfg .halt = [s.cfg.opcodes.halt] ∧
    exec .halt s = .next { s with status := .halted } ∧
    (s.cfg.Valid → s.status = .running → HoldsInstr s s.pc .halt →
      ∀ k : Nat, Host.Core.run Sys2Proof.core (k + 1) s = .next { s with status := .halted })

/-- 42_stack.md section 1 (R152; the test is the spec's D9): from the reset stack pointer exactly VECTOR_TABLE_SIZE pops
into a register other than the stack pointer succeed, and the next one takes StackUnderflow. -/
def Obligations.PopsFromResetUnderflowAfterVectorTable : Prop :=
  ∀ (a : Byte) (s : State), s.cfg.Valid → s.status = .running → s.sp = s.cfg.spInit →
    a.toNat < 8 → a.toNat ≠ s.cfg.spIndex.val →
    (∀ n ≤ s.cfg.vectorTableSize, ∃ t, execTimes (.pop a) n s = .next t ∧ t.status = .running ∧
      t.sp.toNat = s.sp.toNat + n) ∧
    (∃ t sp, execTimes (.pop a) (s.cfg.vectorTableSize + 1) s = .next t ∧ t.status = .faulted (.stackUnderflow sp) ∧
      sp.toNat = s.cfg.memCapacity - 1)

/-! ### Frames -/

/-- 10_state.md section 2 (R25): an instruction changes no register but the ones the table names, whether it completes or
faults: ADD and LOAD_IMMEDIATE `a`, STORE `b`, POP `a` and the stack pointer, PUSH, CALL and RETURN the stack pointer. -/
def Obligations.RegistersOutsideTheTableAreUnchanged : Prop :=
  ∀ (i : Instr) (s t : State) (j : Fin 8), exec i s = .next t → ¬ i.writesReg s.cfg j → t.regs[j] = s.regs[j]

/-- 20_memory.md section 2 (R65): an instruction other than PUSH and CALL changes no byte of memory. -/
def Obligations.OnlyPushAndCallStore : Prop :=
  ∀ (i : Instr) (s t : State), i.stores = false → exec i s = .next t → ∀ addr, t.mem.read addr = s.mem.read addr

/-- 20_memory.md section 2 (R63, R65): PUSH and CALL change no byte but the one at the address the push primitive gives; and
none where it faults. -/
def Obligations.PushAndCallStoreOneByte : Prop :=
  ∀ (i : Instr) (s t : State), i.stores = true → exec i s = .next t →
    (∀ addr u, stackDec s = .ok (addr, u) → ∀ b, b ≠ addr → t.mem.read b = s.mem.read b) ∧
    (∀ f, stackDec s = .error f → ∀ b, t.mem.read b = s.mem.read b)

/-- 10_state.md section 4 (R31): no instruction but COMPARE changes FL, and COMPARE changes no bit but E, G, L. -/
def Obligations.OnlyCompareWritesFlags : Prop :=
  ∀ (i : Instr) (s t : State), exec i s = .next t →
    ((∀ a b, i ≠ .compare a b) → t.fl = s.fl) ∧
    (∀ p : Fin 8, p ≠ s.cfg.flE → p ≠ s.cfg.flG → p ≠ s.cfg.flL → flagBit t.fl p = flagBit s.fl p)

/-- 10_state.md section 6 and 00_scope.md section 4 (R33, R6; the field is log 1): no instruction changes the configuration;
only HALT halts; every other change of the status is a fault. -/
def Obligations.StatusChangesOnlyByHaltOrFault : Prop :=
  ∀ (i : Instr) (s t : State), exec i s = .next t →
    t.cfg = s.cfg ∧ (t.status = s.status ∨ (i = .halt ∧ t.status = .halted) ∨ ∃ f, t.status = .faulted f)

/-- R248: the events of a cycle are those of the instruction it executes, appended in that cycle; a cycle that ends in a
fault emits nothing; and over a run the stream only grows at its end. -/
def Obligations.OutputFollowsExecution : Prop :=
  (∀ (s t : State) (i : Instr), s.status = .running → fetchInstr s = .ok i → step s = .next t →
    ((∀ f, t.status ≠ .faulted f) → t.out = s.out ++ (i.event s).toList) ∧
    (∀ f, t.status = .faulted f → t.out = s.out)) ∧
  (∀ (s t : State) (e : DecodeError), s.status = .running → fetchInstr s = .error e → step s = .next t → t.out = s.out) ∧
  (∀ (k : Nat) (s t : State), Host.Core.run Sys2Proof.core k s = .next t → ∃ evs, t.out = s.out ++ evs)

/-- 60_exceptions.md section 3 (R210, R211; the spec's D15): a cycle that ends in a fault changes `status` and nothing
else. -/
def Obligations.FaultsArePrecise : Prop :=
  ∀ (s t : State) (f : Fault), s.status = .running → step s = .next t → t.status = .faulted f →
    t = { s with status := .faulted f }

/-- 10_state.md section 4 (R31): no instruction reads FL but for E, so FL's other bits never reach registers, memory, `pc`,
status or output. -/
def Obligations.OnlyEqualFlagIsObserved : Prop :=
  ∀ (i : Instr) (s t : State) (fl : Byte), flagBit fl s.cfg.flE = s.flagE → exec i s = .next t →
    ∃ u, exec i { s with fl := fl } = .next u ∧ u.regs = t.regs ∧ u.mem = t.mem ∧ u.pc = t.pc ∧
      u.status = t.status ∧ u.out = t.out

/-- 60_exceptions.md section 1 (R203; the moment of the check is the spec's D4, D14): a step takes InvalidRegister only with
an index above 7 that the instruction accesses as a register operand, so RETURN and HALT never take it and a conditional
jump takes it only when taken; and an instruction that completes has accessed valid indices only. -/
def Obligations.InvalidRegisterComesFromAccessedOperand : Prop :=
  ∀ (i : Instr) (s t : State), s.status = .running → exec i s = .next t →
    (∀ x, t.status = .faulted (.invalidRegister x) → x ∈ i.accesses s ∧ 8 ≤ x.toNat) ∧
    ((∀ f, t.status ≠ .faulted f) → ∀ x ∈ i.accesses s, x.toNat < 8)

/-! ### The dispatch cycle -/

/-- 30_encoding.md section 4 (R98): when the bytes at `pc` decode to an instruction, the step is that instruction's rule. -/
def Obligations.StepRunsDecodedInstruction : Prop :=
  ∀ (s : State) (i : Instr) (rest : List Byte), s.status = .running → decode s.cfg (fetchWindow s) = .ok (i, rest) →
    step s = exec i s

/-- 30_encoding.md section 4 (R98): when memory holds a well-formed instruction's bytes from `pc` on, the step is that
instruction's rule, wherever in memory it stands and whatever follows it. -/
def Obligations.StepRunsInstructionInMemory : Prop :=
  ∀ (s : State) (i : Instr), s.status = .running → i.WellFormed s.cfg → HoldsInstr s s.pc i → step s = exec i s

/-- 30_encoding.md section 4, 60_exceptions.md section 2 (R98, R209; the order is the spec's D14): OutOfBounds at the opcode
when `pc` is outside memory, and, after the opcode is known, OutOfBounds at the first address memory does not have. -/
def Obligations.FetchOutsideMemoryFaults : Prop :=
  ∀ s : State, s.cfg.Valid → s.status = .running →
    (s.cfg.memCapacity ≤ s.pc → step s = .next { s with status := .faulted (.outOfBounds s.pc) }) ∧
    (∀ k : Operation, s.pc < s.cfg.memCapacity → s.mem.read s.pc = s.cfg.opcodes.byteOf k →
      s.cfg.memCapacity ≤ s.pc + k.arity →
      step s = .next { s with status := .faulted (.outOfBounds s.cfg.memCapacity) })

/-- 00_scope.md section 5 (R10): under a valid configuration every step has a next state; no state is stuck. -/
def Obligations.StepIsTotal : Prop :=
  ∀ s : State, s.cfg.Valid → ∃ t, step s = .next t

/-- 10_state.md section 6 (R34; that the step answers the same state is the model's choice, log 10): once a run has ended,
any number of steps leaves the state as it is. -/
def Obligations.EndedRunStaysPut : Prop :=
  ∀ (s : State) (k : Nat), s.Ended → Host.Core.run Sys2Proof.core k s = .next s

/-- 10_state.md section 6 (R34): a RUNNING cycle halts exactly when it executes a HALT. -/
def Obligations.StepHaltsExactlyAtHalt : Prop :=
  ∀ s t : State, s.status = .running → step s = .next t → (t.status = .halted ↔ fetchInstr s = .ok .halt)

/-! ### Invariants and whole-machine rules -/

/-- R26, R28, R30, R31, R60 as one invariant (10_state.md sections 3 and 4): every step keeps it. Its clause that memory is
canonical is the model's own form (DESIGN CHOICE, log 23). -/
def Obligations.StepKeepsInvariant : Prop :=
  ∀ s t : State, s.Inv → step s = .next t → t.Inv

/-- 10_state.md section 9: the reset state of every valid configuration meets the invariant, the model's canonical form of
memory (DESIGN CHOICE, log 23) among its clauses. -/
def Obligations.ResetMeetsInvariant : Prop :=
  ∀ c : Config, c.Valid → (State.resetOf c).Inv

/-- 60_exceptions.md section 1 (R201 to R207): what a FAULTED status records stays true of the state, whatever the fault. -/
def Obligations.StepKeepsFaultRecordsTrue : Prop :=
  ∀ s t : State, s.FaultRecorded → step s = .next t → t.FaultRecorded

/-- 70_reset_and_hazards.md sections 1 and 2: every state of a run from any image meets the invariant (the model's canonical
form of memory, DESIGN CHOICE, log 23, among its clauses), and its fault, if it has one, is recorded truly. -/
def Obligations.EveryRunKeepsInvariant : Prop :=
  ∀ (c : Config) (image : List Byte) (s t : State) (k : Nat), c.Valid → State.boot c image = some s →
    Host.Core.run Sys2Proof.core k s = .next t → t.Inv ∧ t.FaultRecorded

/-- R241 (R38): reset, from any state, gives every piece of state its reset value; nothing survives it. `x[SP_INDEX]` is R7
in the reference configuration. -/
def Obligations.ResetRestoresEveryValue : Prop :=
  ∀ s : State,
    (∀ addr, s.hostReset.mem.read addr = 0) ∧
    (∀ j : Fin 8, j ≠ s.cfg.spIndex → s.hostReset.regs[j] = 0) ∧
    s.hostReset.sp = s.cfg.spInit ∧
    (s.cfg.Valid → s.cfg.spInit.toNat = s.cfg.memCapacity - 1 - s.cfg.vectorTableSize) ∧
    s.hostReset.fl = 0 ∧ s.hostReset.pc = 0 ∧ s.hostReset.status = .running ∧ s.hostReset.out = [] ∧
    (∀ u : State, u.cfg = s.cfg → u.hostReset = s.hostReset)

/-- 70_reset_and_hazards.md section 2 (R242; the refusal of a longer image is the spec's D21, log 19): load writes byte `i`
of the image to address `i` and touches nothing else. That the loaded memory is canonical is the model's own form (DESIGN
CHOICE, log 23). -/
def Obligations.BootLoadsImageAtZero : Prop :=
  ∀ (c : Config) (image : List Byte),
    (c.memCapacity < image.length → State.boot c image = none) ∧
    (image.length ≤ c.memCapacity →
      ∃ s, State.boot c image = some s ∧ s = { State.resetOf c with mem := s.mem } ∧ s.mem.wf ∧
        ∀ addr, s.mem.read addr = image.getD addr 0)

/-- 42_stack.md section 1, 20_memory.md section 4 (R151, R65, R69; the limit is the spec's D8): no run ever changes a cell
below STACK_LIMIT, and no step changes the opcode byte it executes. -/
def Obligations.CellsBelowStackLimitSurviveEveryRun : Prop :=
  (∀ (k : Nat) (s t : State), Host.Core.run Sys2Proof.core k s = .next t →
    ∀ addr, addr < s.cfg.stackLimit → t.mem.read addr = s.mem.read addr) ∧
  (∀ s t : State, step s = .next t → t.mem.read s.pc = s.mem.read s.pc)

/-! ### The source's properties of two instructions in a row -/

/-- 42_stack.md section 3 (R155): PUSH r followed by POP r' moves the value and restores the stack pointer, for registers
other than the stack pointer, when the pushed cell is no byte of the POP. -/
def Obligations.PushThenPopMovesValue : Prop :=
  ∀ (s : State) (r r' : Byte) (hr : r.toNat < 8) (hr' : r'.toNat < 8), s.Inv → s.status = .running →
    r.toNat ≠ s.cfg.spIndex.val → r'.toNat ≠ s.cfg.spIndex.val →
    HoldsInstr s s.pc (.push r) → HoldsInstr s (s.pc + 2) (.pop r') →
    ¬ s.PushOverflows → s.sp.toNat < s.cfg.memCapacity →
    s.sp.toNat ≠ s.pc + 3 → s.sp.toNat ≠ s.pc + 4 →
    ∃ t, Host.Core.run Sys2Proof.core 2 s = .next t ∧ t.regs[r'.toNat] = s.regs[r.toNat] ∧ t.sp = s.sp ∧
      t.pc = s.pc + 4 ∧ t.status = .running

/-- 43_subroutine.md (R162): a CALL at address 253 or below whose target is a RETURN comes back to the instruction after
the CALL with the stack pointer restored, when neither faults. -/
def Obligations.CallThenReturnComesBack : Prop :=
  ∀ (s u t : State) (r : Byte), s.Inv → s.status = .running → s.pc ≤ 253 → HoldsInstr s s.pc (.call r) →
    step s = .next u → u.status = .running → HoldsInstr u u.pc .ret → step u = .next t → t.status = .running →
    t.pc = s.pc + 2 ∧ t.sp = s.sp

/-- 44_branch.md (R173): after COMPARE of equal registers JUMP_IF_EQUAL is taken; after COMPARE of unequal ones
JUMP_IF_NOT_EQUAL is taken, unless flags are sticky and E was set before. -/
def Obligations.CompareThenBranchIsTaken : Prop :=
  ∀ (s : State) (a b r : Byte) (ha : a.toNat < 8) (hb : b.toNat < 8) (hr : r.toNat < 8), s.cfg.Valid →
    s.status = .running → HoldsInstr s s.pc (.compare a b) →
    (s.regs[a.toNat] = s.regs[b.toNat] → HoldsInstr s (s.pc + 3) (.jumpIfEqual r) →
      ∃ t, Host.Core.run Sys2Proof.core 2 s = .next t ∧ t.pc = s.regs[r.toNat].toNat) ∧
    (s.regs[a.toNat] ≠ s.regs[b.toNat] → (s.cfg.flagsSticky = false ∨ s.flagE = false) →
      HoldsInstr s (s.pc + 3) (.jumpIfNotEqual r) →
      ∃ t, Host.Core.run Sys2Proof.core 2 s = .next t ∧ t.pc = s.regs[r.toNat].toNat)
end

