-- ==== Sys2Proof/Laws/Memory.lean ====
section
/-! SUPPORT. Memory: a read after a write, the canonical form kept by every write, and the bounds of the listed cells. -/

namespace Sys2Proof.Machine.Memory

@[simp] theorem read_nil (a : Nat) : Memory.read [] a = 0 := rfl

/-- A cell below every listed address reads as unlisted. -/
theorem read_of_lt_all {m : Memory} {a : Nat} (h : ∀ p ∈ m, a < p.1) : m.read a = Memory.unlisted := by
  induction m with
  | nil => rfl
  | cons p m ih =>
    have hp := h p (by simp)
    simp only [Memory.read]
    rw [if_neg (by omega)]
    exact ih fun q hq => h q (by simp [hq])

/-- Reading another address after a write gives what it gave before. -/
theorem read_write_ne (m : Memory) {a b : Nat} (v : Byte) (h : b ≠ a) : (m.write a v).read b = m.read b := by
  induction m with
  | nil => simp only [Memory.write]; split <;> simp [Memory.read, h]
  | cons p m ih =>
    obtain ⟨k, w⟩ := p
    simp only [Memory.write]
    split
    · split <;> simp [Memory.read, h]
    · split
      · next hk => subst hk; split <;> simp [Memory.read, h]
      · simp only [Memory.read, ih]

/-- Reading the written address gives the written byte. -/
theorem read_write_same {m : Memory} (hm : m.wf) (a : Nat) (v : Byte) : (m.write a v).read a = v := by
  induction m with
  | nil => simp only [Memory.write]; split <;> simp_all [Memory.read, Memory.unlisted]
  | cons p m ih =>
    obtain ⟨k, w⟩ := p
    obtain ⟨hs, hz⟩ := hm
    rw [List.pairwise_cons] at hs
    have hm' : Memory.wf m := ⟨hs.2, fun q hq => hz q (by simp [hq])⟩
    simp only [Memory.write]
    split
    · next hak =>
      split
      · next hv =>
        rw [hv]
        exact read_of_lt_all fun q hq => by
          rcases List.mem_cons.1 hq with rfl | hq
          · exact hak
          · exact Nat.lt_trans hak (hs.1 q hq)
      · simp [Memory.read]
    · split
      · next hak =>
        subst hak
        split
        · next hv => rw [hv]; exact read_of_lt_all hs.1
        · simp [Memory.read]
      · next hak => simp only [Memory.read, if_neg hak]; exact ih hm'

/-- Read after write, both cases at once. -/
theorem read_write {m : Memory} (hm : m.wf) (a b : Nat) (v : Byte) :
    (m.write a v).read b = if b = a then v else m.read b := by
  split
  · next h => rw [h, read_write_same hm]
  · next h => exact read_write_ne m v h

/-- The cells a write lists are the written one and those listed before. -/
theorem mem_write {m : Memory} {a : Nat} {v : Byte} {p : Host.Cell} (h : p ∈ m.write a v) :
    (p = (a, v) ∧ v ≠ Memory.unlisted) ∨ p ∈ m := by
  induction m with
  | nil =>
    simp only [Memory.write] at h
    split at h
    · cases h
    · next hv => exact .inl ⟨by simpa using h, hv⟩
  | cons q m ih =>
    obtain ⟨k, w⟩ := q
    simp only [Memory.write] at h
    split at h
    · split at h
      · exact .inr h
      · next hv =>
        rcases List.mem_cons.1 h with rfl | h
        · exact .inl ⟨rfl, hv⟩
        · exact .inr h
    · split at h
      · split at h
        · exact .inr (List.mem_cons_of_mem _ h)
        · next hv =>
          rcases List.mem_cons.1 h with rfl | h
          · exact .inl ⟨rfl, hv⟩
          · exact .inr (List.mem_cons_of_mem _ h)
      · rcases List.mem_cons.1 h with rfl | h
        · exact .inr (by simp)
        · exact (ih h).imp id (List.mem_cons_of_mem _)

/-- A write keeps the canonical form. -/
theorem write_wf {m : Memory} (hm : m.wf) (a : Nat) (v : Byte) : (m.write a v).wf := by
  refine ⟨?_, fun p hp => (mem_write hp).elim (fun h => by rw [h.1]; exact h.2) (hm.2 p)⟩
  induction m with
  | nil => simp only [Memory.write]; split <;> simp
  | cons q m ih =>
    obtain ⟨k, w⟩ := q
    obtain ⟨hs, hz⟩ := hm
    have hc := List.pairwise_cons.1 hs
    have hm' : Memory.wf m := ⟨hc.2, fun q hq => hz q (by simp [hq])⟩
    simp only [Memory.write]
    split
    · next hak =>
      split
      · exact hs
      · refine List.pairwise_cons.2 ⟨fun p hp => ?_, hs⟩
        rcases List.mem_cons.1 hp with rfl | hp
        · exact hak
        · exact Nat.lt_trans hak (hc.1 p hp)
    · split
      · next hak =>
        split
        · exact hc.2
        · exact List.pairwise_cons.2 ⟨fun p hp => by simpa [hak] using hc.1 p hp, hc.2⟩
      · next h1 h2 =>
        refine List.pairwise_cons.2 ⟨fun p hp => ?_, ih hm'⟩
        rcases mem_write hp with ⟨rfl, -⟩ | hp
        · show k < a; omega
        · exact hc.1 p hp

/-- The memory of every reset state has the canonical form. -/
theorem resetOf_wf (c : Config) : (State.resetOf c).mem.wf := ⟨List.Pairwise.nil, fun _ h => by cases h⟩

/-- A write within memory lists only cells within memory. -/
theorem write_bounded {m : Memory} {a n : Nat} {v : Byte} (hm : ∀ p ∈ m, p.1 < n) (ha : a < n) :
    ∀ p ∈ m.write a v, p.1 < n := fun p hp =>
  (mem_write hp).elim (fun h => by rw [h.1]; exact ha) (hm p)

end Sys2Proof.Machine.Memory
end

