-- ==== Sys2Proof/Laws/State.lean ====
section
/-! SUPPORT. What each update of State does to each field: one lemma a field and update, so that no proof unfolds one. -/

namespace Sys2Proof.Machine

@[simp] theorem State.setSp_cfg (s : State) (v : Byte) : (s.setSp v).cfg = s.cfg := rfl
@[simp] theorem State.setSp_mem (s : State) (v : Byte) : (s.setSp v).mem = s.mem := rfl
@[simp] theorem State.setSp_regs (s : State) (v : Byte) : (s.setSp v).regs = s.regs.set s.cfg.spIndex v := rfl
@[simp] theorem State.setSp_fl (s : State) (v : Byte) : (s.setSp v).fl = s.fl := rfl
@[simp] theorem State.setSp_pc (s : State) (v : Byte) : (s.setSp v).pc = s.pc := rfl
@[simp] theorem State.setSp_status (s : State) (v : Byte) : (s.setSp v).status = s.status := rfl
@[simp] theorem State.setSp_out (s : State) (v : Byte) : (s.setSp v).out = s.out := rfl

@[simp] theorem State.setFl_cfg (s : State) (v : Byte) : (s.setFl v).cfg = s.cfg := rfl
@[simp] theorem State.setFl_mem (s : State) (v : Byte) : (s.setFl v).mem = s.mem := rfl
@[simp] theorem State.setFl_regs (s : State) (v : Byte) : (s.setFl v).regs = s.regs := rfl
@[simp] theorem State.setFl_fl (s : State) (v : Byte) : (s.setFl v).fl = v := rfl
@[simp] theorem State.setFl_pc (s : State) (v : Byte) : (s.setFl v).pc = s.pc := rfl
@[simp] theorem State.setFl_status (s : State) (v : Byte) : (s.setFl v).status = s.status := rfl
@[simp] theorem State.setFl_out (s : State) (v : Byte) : (s.setFl v).out = s.out := rfl

@[simp] theorem State.advance_cfg (s : State) (n : Nat) : (s.advance n).cfg = s.cfg := rfl
@[simp] theorem State.advance_mem (s : State) (n : Nat) : (s.advance n).mem = s.mem := rfl
@[simp] theorem State.advance_regs (s : State) (n : Nat) : (s.advance n).regs = s.regs := rfl
@[simp] theorem State.advance_fl (s : State) (n : Nat) : (s.advance n).fl = s.fl := rfl
@[simp] theorem State.advance_pc (s : State) (n : Nat) : (s.advance n).pc = s.pc + n := rfl
@[simp] theorem State.advance_status (s : State) (n : Nat) : (s.advance n).status = s.status := rfl
@[simp] theorem State.advance_out (s : State) (n : Nat) : (s.advance n).out = s.out := rfl

@[simp] theorem State.jumpTo_cfg (s : State) (t : Byte) : (s.jumpTo t).cfg = s.cfg := rfl
@[simp] theorem State.jumpTo_mem (s : State) (t : Byte) : (s.jumpTo t).mem = s.mem := rfl
@[simp] theorem State.jumpTo_regs (s : State) (t : Byte) : (s.jumpTo t).regs = s.regs := rfl
@[simp] theorem State.jumpTo_fl (s : State) (t : Byte) : (s.jumpTo t).fl = s.fl := rfl
@[simp] theorem State.jumpTo_pc (s : State) (t : Byte) : (s.jumpTo t).pc = t.toNat := rfl
@[simp] theorem State.jumpTo_status (s : State) (t : Byte) : (s.jumpTo t).status = s.status := rfl
@[simp] theorem State.jumpTo_out (s : State) (t : Byte) : (s.jumpTo t).out = s.out := rfl

@[simp] theorem State.emit_cfg (s : State) (e : Event) : (s.emit e).cfg = s.cfg := rfl
@[simp] theorem State.emit_mem (s : State) (e : Event) : (s.emit e).mem = s.mem := rfl
@[simp] theorem State.emit_regs (s : State) (e : Event) : (s.emit e).regs = s.regs := rfl
@[simp] theorem State.emit_fl (s : State) (e : Event) : (s.emit e).fl = s.fl := rfl
@[simp] theorem State.emit_pc (s : State) (e : Event) : (s.emit e).pc = s.pc := rfl
@[simp] theorem State.emit_status (s : State) (e : Event) : (s.emit e).status = s.status := rfl
@[simp] theorem State.emit_out (s : State) (e : Event) : (s.emit e).out = s.out ++ [e] := rfl

@[simp] theorem State.halt_cfg (s : State) : (s.halt).cfg = s.cfg := rfl
@[simp] theorem State.halt_mem (s : State) : (s.halt).mem = s.mem := rfl
@[simp] theorem State.halt_regs (s : State) : (s.halt).regs = s.regs := rfl
@[simp] theorem State.halt_fl (s : State) : (s.halt).fl = s.fl := rfl
@[simp] theorem State.halt_pc (s : State) : (s.halt).pc = s.pc := rfl
@[simp] theorem State.halt_status (s : State) : (s.halt).status = .halted := rfl
@[simp] theorem State.halt_out (s : State) : (s.halt).out = s.out := rfl

@[simp] theorem raiseFault_cfg (s : State) (f : Fault) : (raiseFault f s).cfg = s.cfg := rfl
@[simp] theorem raiseFault_mem (s : State) (f : Fault) : (raiseFault f s).mem = s.mem := rfl
@[simp] theorem raiseFault_regs (s : State) (f : Fault) : (raiseFault f s).regs = s.regs := rfl
@[simp] theorem raiseFault_fl (s : State) (f : Fault) : (raiseFault f s).fl = s.fl := rfl
@[simp] theorem raiseFault_pc (s : State) (f : Fault) : (raiseFault f s).pc = s.pc := rfl
@[simp] theorem raiseFault_status (s : State) (f : Fault) : (raiseFault f s).status = .faulted f := rfl
@[simp] theorem raiseFault_out (s : State) (f : Fault) : (raiseFault f s).out = s.out := rfl

/-! ### The stack pointer is a register (R23) -/

@[simp] theorem State.setSp_sp (s : State) (v : Byte) : (s.setSp v).sp = v := by
  simp [State.sp, State.setSp]

@[simp] theorem State.setFl_sp (s : State) (v : Byte) : (s.setFl v).sp = s.sp := rfl
@[simp] theorem State.advance_sp (s : State) (n : Nat) : (s.advance n).sp = s.sp := rfl
@[simp] theorem State.jumpTo_sp (s : State) (t : Byte) : (s.jumpTo t).sp = s.sp := rfl
@[simp] theorem State.emit_sp (s : State) (e : Event) : (s.emit e).sp = s.sp := rfl
@[simp] theorem State.halt_sp (s : State) : s.halt.sp = s.sp := rfl
@[simp] theorem raiseFault_sp (s : State) (f : Fault) : (raiseFault f s).sp = s.sp := rfl

/-- Writing the stack pointer leaves every other register alone. -/
theorem State.setSp_regs_ne (s : State) (v : Byte) (j : Fin 8) (h : j ≠ s.cfg.spIndex) :
    (s.setSp v).regs[j] = s.regs[j] := by
  have : s.cfg.spIndex.val ≠ j.val := fun e => h (Fin.ext e.symm)
  simp [State.setSp, Vector.getElem_set_ne, this]

/-! ### The outcome of an instruction -/

@[simp] theorem commit_ok (s t : State) : commit s (.ok t) = .next t := rfl
@[simp] theorem commit_error (s : State) (f : Fault) : commit s (.error f) = .next (raiseFault f s) := rfl

/-- All that `commit` can do: the rule's own state, or the state of before with the fault recorded. -/
theorem commit_cases {s t : State} {r : Except Fault State} (h : commit s r = .next t) :
    r = .ok t ∨ ∃ f, r = .error f ∧ t = raiseFault f s := by
  cases r with
  | ok u => exact .inl (by simpa using h)
  | error f => exact .inr ⟨f, rfl, by simpa using h.symm⟩

/-- `commit` always gives a next state. -/
theorem commit_next (s : State) (r : Except Fault State) : ∃ t, commit s r = .next t := by
  cases r <;> exact ⟨_, rfl⟩

end Sys2Proof.Machine
end

