-- ==== Sys2Proof/Laws/Ops.lean ====
section
/-! SUPPORT. One lemma for each shared operation that says everything it can do; callers cite it and never unfold the
operation. -/

namespace Sys2Proof.Machine

/-! ### Sequencing -/

@[simp] theorem ok_bind {α β : Type} (a : α) (f : α → Except Fault β) : (Except.ok a >>= f) = f a := rfl
@[simp] theorem error_bind {α β : Type} (e : Fault) (f : α → Except Fault β) :
    ((Except.error e : Except Fault α) >>= f) = .error e := rfl
@[simp] theorem pure_eq_ok {α : Type} (a : α) : (pure a : Except Fault α) = .ok a := rfl

/-! ### Memory -/

/-- `memRead` gives the cell's byte and needs only that the cell exists. -/
theorem memRead_ok_iff {s : State} {addr : Nat} {v : Byte} :
    memRead s addr = .ok v ↔ addr < s.cfg.memCapacity ∧ v = s.mem.read addr := by
  unfold memRead; split <;> simp_all [eq_comm]

/-- The only fault of `memRead`. -/
theorem memRead_error_iff {s : State} {addr : Nat} {f : Fault} :
    memRead s addr = .error f ↔ s.cfg.memCapacity ≤ addr ∧ f = .outOfBounds addr := by
  unfold memRead; split <;> simp_all [eq_comm]

/-- `memWrite` replaces one cell of memory and nothing else. -/
theorem memWrite_ok_iff {s t : State} {addr : Nat} {v : Byte} :
    memWrite s addr v = .ok t ↔ addr < s.cfg.memCapacity ∧ t = { s with mem := s.mem.write addr v } := by
  unfold memWrite; split <;> simp_all [eq_comm]

/-- The only fault of `memWrite`. -/
theorem memWrite_error_iff {s : State} {addr : Nat} {v : Byte} {f : Fault} :
    memWrite s addr v = .error f ↔ s.cfg.memCapacity ≤ addr ∧ f = .outOfBounds addr := by
  unfold memWrite; split <;> simp_all [eq_comm]

/-! ### Registers -/

/-- Reading a register that exists. -/
theorem readReg_of_lt {s : State} {i : Byte} (h : i.toNat < 8) : readReg s i = .ok s.regs[i.toNat] := by
  simp [readReg, h]

/-- Reading an index that names no register. -/
theorem readReg_of_ge {s : State} {i : Byte} (h : 8 ≤ i.toNat) : readReg s i = .error (.invalidRegister i) := by
  simp [readReg, Nat.not_lt.2 h]

/-- Everything a register read can do. -/
theorem readReg_cases (s : State) (i : Byte) :
    (∃ h : i.toNat < 8, readReg s i = .ok s.regs[i.toNat]) ∨
    (8 ≤ i.toNat ∧ readReg s i = .error (.invalidRegister i)) := by
  rcases Nat.lt_or_ge i.toNat 8 with h | h
  · exact .inl ⟨h, readReg_of_lt h⟩
  · exact .inr ⟨h, readReg_of_ge h⟩

/-- Writing a register that exists. -/
theorem writeReg_of_lt {s : State} {i v : Byte} (h : i.toNat < 8) :
    writeReg s i v = .ok { s with regs := s.regs.set i.toNat v } := by
  simp [writeReg, h]

/-- Writing an index that names no register. -/
theorem writeReg_of_ge {s : State} {i v : Byte} (h : 8 ≤ i.toNat) :
    writeReg s i v = .error (.invalidRegister i) := by
  simp [writeReg, Nat.not_lt.2 h]

/-- Everything a register write can do. -/
theorem writeReg_cases (s : State) (i v : Byte) :
    (∃ h : i.toNat < 8, writeReg s i v = .ok { s with regs := s.regs.set i.toNat v }) ∨
    (8 ≤ i.toNat ∧ writeReg s i v = .error (.invalidRegister i)) := by
  rcases Nat.lt_or_ge i.toNat 8 with h | h
  · exact .inl ⟨h, writeReg_of_lt h⟩
  · exact .inr ⟨h, writeReg_of_ge h⟩

/-- Everything two register reads can do: `a` is checked before `b`. -/
theorem regPair_cases (s : State) (a b : Byte) :
    (∃ (ha : a.toNat < 8) (hb : b.toNat < 8), regPair s a b = .ok (s.regs[a.toNat], s.regs[b.toNat])) ∨
    (8 ≤ a.toNat ∧ regPair s a b = .error (.invalidRegister a)) ∨
    (a.toNat < 8 ∧ 8 ≤ b.toNat ∧ regPair s a b = .error (.invalidRegister b)) := by
  unfold regPair regOperand
  rcases readReg_cases s a with ⟨ha, ea⟩ | ⟨ha, ea⟩
  · rcases readReg_cases s b with ⟨hb, eb⟩ | ⟨hb, eb⟩
    · exact .inl ⟨ha, hb, by simp [ea, eb]⟩
    · exact .inr (.inr ⟨ha, hb, by simp [ea, eb]⟩)
  · exact .inr (.inl ⟨ha, by simp [ea]⟩)

/-! ### The stack primitives -/

/-- The push primitive decrements `SP` exactly when `SP - 1` is neither below the limit nor `pc`. -/
theorem stackDec_ok_iff {s t : State} {addr : Nat} :
    stackDec s = .ok (addr, t) ↔
      s.cfg.stackLimit < s.sp.toNat ∧ s.sp.toNat ≠ s.pc + 1 ∧ addr = s.sp.toNat - 1 ∧
      t = s.setSp (s.sp - 1) := by
  unfold stackDec
  dsimp only
  split
  · next h => simp; omega
  · next h1 =>
    split
    · next h2 => simp; omega
    · next h2 =>
      simp only [Except.ok.injEq, Prod.mk.injEq]
      constructor
      · rintro ⟨ha, rfl⟩; exact ⟨by omega, by omega, by omega, rfl⟩
      · rintro ⟨-, -, ha, rfl⟩; exact ⟨by omega, rfl⟩

/-- The only fault of the push primitive. -/
theorem stackDec_error_iff {s : State} {f : Fault} :
    stackDec s = .error f ↔
      (s.sp.toNat ≤ s.cfg.stackLimit ∨ s.sp.toNat = s.pc + 1) ∧ f = .stackOverflow s.sp := by
  unfold stackDec
  dsimp only
  split
  · next h => simp only [Except.error.injEq, eq_comm]; exact ⟨fun e => ⟨.inl (by omega), e⟩, fun e => e.2⟩
  · split
    · next h => simp only [Except.error.injEq, eq_comm]; exact ⟨fun e => ⟨.inr (by omega), e⟩, fun e => e.2⟩
    · next h1 h2 => simp; omega

/-- The pop primitive gives `SP` exactly when `SP + 1` is inside memory. -/
theorem stackTop_ok_iff {s : State} {addr : Nat} :
    stackTop s = .ok addr ↔ s.sp.toNat + 1 < s.cfg.memCapacity ∧ addr = s.sp.toNat := by
  unfold stackTop; split <;> simp [eq_comm] <;> omega

/-- The only fault of the pop primitive. -/
theorem stackTop_error_iff {s : State} {f : Fault} :
    stackTop s = .error f ↔ s.cfg.memCapacity ≤ s.sp.toNat + 1 ∧ f = .stackUnderflow s.sp := by
  unfold stackTop; split <;> simp [eq_comm] <;> omega

end Sys2Proof.Machine
end

