-- ==== Sys2Proof/Laws/Fetch.lean ====
section
/-! SUPPORT. The decoder's table lookup, the fetch window, and bytes placed in memory. -/

namespace Sys2Proof

theorem mem_all (k : Operation) : k ∈ Operation.all := by cases k <;> decide

/-- A lookup that succeeds found an operation with that byte. -/
theorem byteOf_of_lookupOpcode {t : Opcodes} {op : Byte} {k : Operation} (h : lookupOpcode t op = some k) :
    t.byteOf k = op := by
  simpa using List.find?_some h

/-- A lookup fails exactly on a byte of no operation. -/
theorem lookupOpcode_eq_none_iff {t : Opcodes} {op : Byte} :
    lookupOpcode t op = none ↔ ∀ k ∈ Operation.all, t.byteOf k ≠ op := by
  simp [lookupOpcode, List.find?_eq_none]

/-- The lookup of an operation's byte that no other operation has. -/
theorem lookupOpcode_byteOf {t : Opcodes} {k : Operation}
    (h : ∀ j ∈ Operation.all, t.byteOf j = t.byteOf k → j = k) : lookupOpcode t (t.byteOf k) = some k := by
  cases hl : lookupOpcode t (t.byteOf k) with
  | none => exact absurd rfl (lookupOpcode_eq_none_iff.1 hl k (mem_all k))
  | some j => rw [h j (mem_all j) (byteOf_of_lookupOpcode hl)]

end Sys2Proof

namespace Sys2Proof.Machine

/-- The window is shorter than asked exactly where memory ends. -/
theorem readBytes_length (s : State) (n addr : Nat) :
    (readBytes s n addr).length = min n (s.cfg.memCapacity - addr) := by
  induction n generalizing addr with
  | zero => simp [readBytes]
  | succ n ih =>
    simp only [readBytes]
    unfold memRead
    split
    · next h =>
      split at h
      · simp [ih]; omega
      · cases h
    · next h =>
      split at h
      · cases h
      · simp; omega

/-- Each byte of the window is the cell's. -/
theorem readBytes_getElem (s : State) (n addr k : Nat) (h : k < (readBytes s n addr).length) :
    (readBytes s n addr)[k] = s.mem.read (addr + k) := by
  induction n generalizing addr k with
  | zero => simp [readBytes] at h
  | succ n ih =>
    by_cases ha : addr < s.cfg.memCapacity
    · have e : readBytes s (n + 1) addr = s.mem.read addr :: readBytes s n (addr + 1) := by
        simp [readBytes, memRead, ha]
      simp only [e] at h ⊢
      cases k with
      | zero => rfl
      | succ k =>
        simp only [List.getElem_cons_succ]
        rw [ih]; congr 1; omega
    · have e : readBytes s (n + 1) addr = [] := by simp [readBytes, memRead, ha]
      simp [e] at h

/-- Placing bytes changes nothing but memory. -/
theorem placeBytes_eq (s : State) (addr : Nat) (bs : List Byte) :
    placeBytes s addr bs = { s with mem := (placeBytes s addr bs).mem } := by
  induction bs generalizing s addr with
  | nil => rfl
  | cons v vs ih =>
    simp only [placeBytes]
    cases h : memWrite s addr v with
    | error f => rfl
    | ok t =>
      obtain ⟨-, rfl⟩ := memWrite_ok_iff.1 h
      exact ih _ _

/-- Placing bytes keeps the canonical form. -/
theorem placeBytes_wf {s : State} (hs : s.mem.wf) (addr : Nat) (bs : List Byte) : (placeBytes s addr bs).mem.wf := by
  induction bs generalizing s addr with
  | nil => exact hs
  | cons v vs ih =>
    simp only [placeBytes]
    cases h : memWrite s addr v with
    | error f => exact hs
    | ok t =>
      obtain ⟨-, rfl⟩ := memWrite_ok_iff.1 h
      exact ih (Memory.write_wf hs addr v) _

/-- Placing bytes lists only cells within memory. -/
theorem placeBytes_bounded {s : State} (hs : ∀ p ∈ s.mem, p.1 < s.cfg.memCapacity) (addr : Nat) (bs : List Byte) :
    ∀ p ∈ (placeBytes s addr bs).mem, p.1 < s.cfg.memCapacity := by
  induction bs generalizing s addr with
  | nil => exact hs
  | cons v vs ih =>
    simp only [placeBytes]
    cases h : memWrite s addr v with
    | error f => exact hs
    | ok t =>
      obtain ⟨ha, rfl⟩ := memWrite_ok_iff.1 h
      exact ih (s := { s with mem := s.mem.write addr v }) (Memory.write_bounded hs ha) _

/-- Placing bytes leaves the cells below them alone. -/
theorem placeBytes_read_below (s : State) {addr b : Nat} (bs : List Byte) (h : b < addr) :
    (placeBytes s addr bs).mem.read b = s.mem.read b := by
  induction bs generalizing s addr with
  | nil => rfl
  | cons v vs ih =>
    simp only [placeBytes]
    cases hw : memWrite s addr v with
    | error f => rfl
    | ok t =>
      obtain ⟨-, rfl⟩ := memWrite_ok_iff.1 hw
      rw [ih _ (by omega)]
      exact Memory.read_write_ne _ _ (by omega)

end Sys2Proof.Machine
end

