-- ==== Sys2Proof/Laws/Flags.lean ====
section
/-! SUPPORT. The bits of FL after setting and clearing one of them, and after COMPARE's computation. -/

namespace Sys2Proof.Machine

theorem flagBit_flagMask (p q : Fin 8) : flagBit (flagMask p) q = decide (q = p) := by
  revert p q; decide

@[simp] theorem flagBit_setFlag (fl : Byte) (p q : Fin 8) :
    flagBit (setFlag fl p) q = (flagBit fl q || decide (q = p)) := by
  rw [← flagBit_flagMask]; simp [flagBit, setFlag]

@[simp] theorem flagBit_clearFlag (fl : Byte) (p q : Fin 8) :
    flagBit (clearFlag fl p) q = (flagBit fl q && !decide (q = p)) := by
  rw [← flagBit_flagMask]; simp [flagBit, clearFlag]

@[simp] theorem flagBit_zero (p : Fin 8) : flagBit 0 p = false := by simp [flagBit]

/-- The cleared FL keeps a bit that is none of the three, and keeps all of them when flags are sticky. -/
theorem flagBit_clearConditions (c : Config) (fl : Byte) (q : Fin 8) :
    flagBit (clearConditions c fl) q =
      (flagBit fl q && (c.flagsSticky || !(decide (q = c.flE) || decide (q = c.flG) || decide (q = c.flL)))) := by
  unfold clearConditions
  cases c.flagsSticky <;> simp [Bool.and_assoc]

/-- Every bit of FL after COMPARE. -/
theorem flagBit_compareFlags (c : Config) (fl va vb : Byte) (q : Fin 8) :
    flagBit (compareFlags c fl va vb) q =
      (flagBit (clearConditions c fl) q ||
        (decide (va = vb) && decide (q = c.flE)) ||
        (decide (vb.toNat < va.toNat) && decide (q = c.flG)) ||
        (decide (va.toNat < vb.toNat) && decide (q = c.flL))) := by
  have heq : va = vb ↔ va.toNat = vb.toNat := BitVec.toNat_eq
  unfold compareFlags
  rcases Nat.lt_trichotomy va.toNat vb.toNat with h | h | h
  · have h1 : ¬ ((va.toNat : Int) - vb.toNat = 0) := by omega
    have h3 : (va.toNat : Int) - vb.toNat < 0 := by omega
    have h4 : ¬ va = vb := fun e => by rw [e] at h; omega
    simp [h1, h3, h4, h, Nat.not_lt.2 (Nat.le_of_lt h)]
  · have h1 : (va.toNat : Int) - vb.toNat = 0 := by omega
    simp [h, heq]
  · have h1 : ¬ ((va.toNat : Int) - vb.toNat = 0) := by omega
    have h3 : ¬ ((va.toNat : Int) - vb.toNat < 0) := by omega
    have h4 : ¬ va = vb := fun e => by rw [e] at h; omega
    simp [h1, h3, h4, h, Nat.not_lt.2 (Nat.le_of_lt h)]

end Sys2Proof.Machine
end

