-- ==== Sys2Proof/Laws/PerInstr.lean ====
section
/-! SUPPORT. Facts about every instruction as syntax, one lemma a constructor (LAWS.json, "per_instruction"). -/

namespace Sys2Proof

/-- An instruction's operand bytes number what its format gives it (R91). -/
def Laws.OperandBytes.Statement (i : Instr) : Prop := i.operands.length = i.operation.arity

theorem Laws.OperandBytes.add (a b : Byte) : Laws.OperandBytes.Statement (.add a b) := rfl
theorem Laws.OperandBytes.multiply (a b : Byte) : Laws.OperandBytes.Statement (.multiply a b) := rfl
theorem Laws.OperandBytes.compare (a b : Byte) : Laws.OperandBytes.Statement (.compare a b) := rfl
theorem Laws.OperandBytes.loadImmediate (a imm : Byte) : Laws.OperandBytes.Statement (.loadImmediate a imm) := rfl
theorem Laws.OperandBytes.store (a b : Byte) : Laws.OperandBytes.Statement (.store a b) := rfl
theorem Laws.OperandBytes.push (a : Byte) : Laws.OperandBytes.Statement (.push a) := rfl
theorem Laws.OperandBytes.pop (a : Byte) : Laws.OperandBytes.Statement (.pop a) := rfl
theorem Laws.OperandBytes.call (a : Byte) : Laws.OperandBytes.Statement (.call a) := rfl
theorem Laws.OperandBytes.ret : Laws.OperandBytes.Statement .ret := rfl
theorem Laws.OperandBytes.jump (a : Byte) : Laws.OperandBytes.Statement (.jump a) := rfl
theorem Laws.OperandBytes.jumpIfEqual (a : Byte) : Laws.OperandBytes.Statement (.jumpIfEqual a) := rfl
theorem Laws.OperandBytes.jumpIfNotEqual (a : Byte) : Laws.OperandBytes.Statement (.jumpIfNotEqual a) := rfl
theorem Laws.OperandBytes.printRegister (a : Byte) : Laws.OperandBytes.Statement (.printRegister a) := rfl
theorem Laws.OperandBytes.halt : Laws.OperandBytes.Statement .halt := rfl

/-- The decoder's constructor of an operation, applied to an instruction's operand bytes, gives the instruction back: no
operand is dropped or exchanged (R91). -/
def Laws.RebuiltFromOperands.Statement (i : Instr) : Prop := buildInstr i.operation i.operands = some i

theorem Laws.RebuiltFromOperands.add (a b : Byte) : Laws.RebuiltFromOperands.Statement (.add a b) := rfl
theorem Laws.RebuiltFromOperands.multiply (a b : Byte) : Laws.RebuiltFromOperands.Statement (.multiply a b) := rfl
theorem Laws.RebuiltFromOperands.compare (a b : Byte) : Laws.RebuiltFromOperands.Statement (.compare a b) := rfl
theorem Laws.RebuiltFromOperands.loadImmediate (a imm : Byte) :
    Laws.RebuiltFromOperands.Statement (.loadImmediate a imm) := rfl
theorem Laws.RebuiltFromOperands.store (a b : Byte) : Laws.RebuiltFromOperands.Statement (.store a b) := rfl
theorem Laws.RebuiltFromOperands.push (a : Byte) : Laws.RebuiltFromOperands.Statement (.push a) := rfl
theorem Laws.RebuiltFromOperands.pop (a : Byte) : Laws.RebuiltFromOperands.Statement (.pop a) := rfl
theorem Laws.RebuiltFromOperands.call (a : Byte) : Laws.RebuiltFromOperands.Statement (.call a) := rfl
theorem Laws.RebuiltFromOperands.ret : Laws.RebuiltFromOperands.Statement .ret := rfl
theorem Laws.RebuiltFromOperands.jump (a : Byte) : Laws.RebuiltFromOperands.Statement (.jump a) := rfl
theorem Laws.RebuiltFromOperands.jumpIfEqual (a : Byte) : Laws.RebuiltFromOperands.Statement (.jumpIfEqual a) := rfl
theorem Laws.RebuiltFromOperands.jumpIfNotEqual (a : Byte) :
    Laws.RebuiltFromOperands.Statement (.jumpIfNotEqual a) := rfl
theorem Laws.RebuiltFromOperands.printRegister (a : Byte) : Laws.RebuiltFromOperands.Statement (.printRegister a) := rfl
theorem Laws.RebuiltFromOperands.halt : Laws.RebuiltFromOperands.Statement .halt := rfl

end Sys2Proof
end

