-- ==== Sys2Proof/Laws/Run.lean ====
section
/-! SUPPORT. What a step can be, and the one induction over runs: what holds at the start and is kept by every step holds
after any number of steps. -/

namespace Sys2Proof.Machine

/-- A RUNNING step whose fetch gives an instruction is that instruction's rule. -/
theorem step_of_fetch {s : State} {i : Instr} (hr : s.status = .running) (hf : fetchInstr s = .ok i) :
    step s = exec i s := by
  simp [step, hr, hf]

/-- A RUNNING step whose fetch stops. -/
theorem step_of_stop {s : State} {e : DecodeError} (hr : s.status = .running) (hf : fetchInstr s = .error e) :
    step s = fetchStop e s := by
  simp [step, hr, hf]

/-- All that a step can be: it changes nothing after the end of a run, executes the instruction fetched, or takes the
fetch's fault. -/
theorem step_cases {s t : State} (h : step s = .next t) :
    (s.status ≠ .running ∧ t = s) ∨
    (s.status = .running ∧ ∃ i, fetchInstr s = .ok i ∧ exec i s = .next t) ∨
    (s.status = .running ∧ ∃ n, fetchInstr s = .error (.truncated n) ∧ t = raiseFault (.outOfBounds (s.pc + n)) s) ∨
    (s.status = .running ∧ ∃ op, fetchInstr s = .error (.unknownOpcode op) ∧ t = raiseFault (.unknownOpcode op) s) := by
  unfold step at h
  split at h
  · next hr =>
    split at h
    · next i hf => exact .inr (.inl ⟨hr, i, hf, h⟩)
    · next e hf =>
      cases e with
      | truncated n => exact .inr (.inr (.inl ⟨hr, n, hf, by simpa [fetchStop] using h.symm⟩))
      | unknownOpcode op => exact .inr (.inr (.inr ⟨hr, op, hf, by simpa [fetchStop] using h.symm⟩))
      | operandMismatch op => simp [fetchStop] at h
  · next hr => exact .inl ⟨by simp [hr], by simpa [endedStep] using h.symm⟩
  · next hr => exact .inl ⟨by simp [hr], by simpa [endedStep] using h.symm⟩

/-- A run of `k + 1` steps begins with a step. -/
theorem run_succ (k : Nat) (s : State) :
    Host.Core.run Sys2Proof.core (k + 1) s =
      match step s with
      | .next t => Host.Core.run Sys2Proof.core k t
      | .fault r => .fault r
      | .refused r => .refused r := by
  refine Eq.trans (Host.Core.run.eq_2 Sys2Proof.core s k) ?_
  cases h : step s with
  | next t => rw [show Sys2Proof.core.step s = .next t from h]
  | fault r => rw [show Sys2Proof.core.step s = .fault r from h]
  | refused r => rw [show Sys2Proof.core.step s = .refused r from h]

/-- The induction over runs, once for all invariants. -/
theorem run_induction {P : State → Prop} (hstep : ∀ s t, P s → step s = .next t → P t) {k : Nat} {s t : State}
    (hs : P s) (h : Host.Core.run Sys2Proof.core k s = .next t) : P t := by
  induction k generalizing s with
  | zero =>
    cases h
    exact hs
  | succ k ih =>
    rw [run_succ] at h
    cases hst : step s with
    | next u => rw [hst] at h; exact ih (hstep s u hs hst) h
    | fault r => rw [hst] at h; cases h
    | refused r => rw [hst] at h; cases h

end Sys2Proof.Machine
end

