-- ==== Sys2Proof/Tests/Slice0.lean ====
section
/-! SUPPORT. Tests. Expected results are those of spec/95_test_vectors.md (the vector is named at each test) or are read
off the tables of 30_encoding.md; none is the model's own answer pasted back. After them, a witness for the hypotheses of
every statement in Certificates/Slice0/Obligations.lean. -/

namespace Sys2Proof.Tests

open Sys2Proof.Machine

/-- The next state of an outcome, if it is one. -/
def nextOf : Host.Outcome State Fault Refusal → Option State
  | .next t => some t
  | .fault _ => none
  | .refused _ => none

/-- The reset state with `pc` moved and bytes placed from there on. -/
def loaded (pc : Nat) (bytes : List Byte) : State := placeBytes { State.reset with pc := pc } pc bytes

/-- A state with one register changed. -/
def reg (i : Fin 8) (v : Byte) (s : State) : State := { s with regs := s.regs.set i v }

/-- A state with another FL. -/
def flags (v : Byte) (s : State) : State := { s with fl := v }

/-- A state with the same contents and another configuration. -/
def configured (c : Config) (s : State) : State := { s with cfg := c }

/-- One step, looked at. -/
def after {α : Type} (f : State → α) (s : State) : Option α := (nextOf (step s)).map f

/-! ### Well-formedness: one ill-formed term for each check -/

theorem wf_reference : Config.reference.Valid := by decide
theorem wf_smallest : { Config.reference with memCapacity := 1, vectorTableSize := 0, stackLimit := 255 }.Valid := by decide
theorem wf_refuses_no_memory : ¬ { Config.reference with memCapacity := 0 }.Valid := by decide
theorem wf_refuses_memory_above_256 : ¬ { Config.reference with memCapacity := 257 }.Valid := by decide
theorem wf_refuses_vector_table_of_all : ¬ { Config.reference with vectorTableSize := 256 }.Valid := by decide
theorem wf_refuses_stack_limit_256 : ¬ { Config.reference with stackLimit := 256 }.Valid := by decide
theorem wf_refuses_equal_opcodes :
    ¬ { Config.reference with opcodes := { Opcodes.reference with add := 0xA2 } }.Valid := by decide
theorem wf_refuses_wrong_operand_count :
    ¬ { Config.reference with opcodes := { Opcodes.reference with add := 0x20 } }.Valid := by decide
theorem wf_refuses_shared_flag_position : ¬ { Config.reference with flG := 0 }.Valid := by decide
theorem wf_instr : Instr.WellFormed Config.reference (.add 8 255) := by decide
theorem wf_refuses_instr_of_wrong_length :
    ¬ Instr.WellFormed { Config.reference with opcodes := { Opcodes.reference with add := 0x20 } } (.add 0 0) := by decide
theorem wf_refuses_instr_of_shared_byte :
    ¬ Instr.WellFormed { Config.reference with opcodes := { Opcodes.reference with pop := 0x45 } } (.push 0) := by decide

/-! ### Decoding: the words of 30_encoding.md R96, bit by bit -/

theorem decode_word_add : decode Config.reference [0b10100000, 0b00000010, 0b11111111] = .ok (.add 2 255, []) := rfl
theorem decode_word_multiply : decode Config.reference [0b10100010, 0, 1] = .ok (.multiply 0 1, []) := rfl
theorem decode_word_compare : decode Config.reference [0b10100111, 7, 0] = .ok (.compare 7 0, []) := rfl
theorem decode_word_loadImmediate : decode Config.reference [0b10000010, 0, 0b00001000] = .ok (.loadImmediate 0 8, []) := rfl
theorem decode_word_store : decode Config.reference [0b10000100, 1, 2] = .ok (.store 1 2, []) := rfl
theorem decode_word_push : decode Config.reference [0b01000101, 9, 0x46] = .ok (.push 9, [0x46]) := rfl
theorem decode_word_pop : decode Config.reference [0b01000110, 1] = .ok (.pop 1, []) := rfl
theorem decode_word_call : decode Config.reference [0b01010000, 2] = .ok (.call 2, []) := rfl
theorem decode_word_ret : decode Config.reference [0b00010001, 2] = .ok (.ret, [2]) := rfl
theorem decode_word_jump : decode Config.reference [0b01010100, 3] = .ok (.jump 3, []) := rfl
theorem decode_word_jumpIfEqual : decode Config.reference [0b01010101, 3] = .ok (.jumpIfEqual 3, []) := rfl
theorem decode_word_jumpIfNotEqual : decode Config.reference [0b01010110, 3] = .ok (.jumpIfNotEqual 3, []) := rfl
theorem decode_word_printRegister : decode Config.reference [0b01000111, 0] = .ok (.printRegister 0, []) := rfl
theorem decode_word_halt : decode Config.reference [0b00000001] = .ok (.halt, []) := rfl

/-- B13-1 to B13-9: bytes that are no opcode, among them LS-8's NOP, LD, SUB, IRET, PRA, AND. -/
theorem decode_refuses_other_bytes :
    ([0x00, 0xFF, 0xC0, 0x83, 0xA1, 0x13, 0x48, 0x02, 0xA8] : List Byte).all
      (fun op => (lookupOpcode Opcodes.reference op).isNone) = true := by decide

/-- B13-14: the lengths. -/
theorem decode_lengths :
    ([0x01, 0x11] : List Byte).map instrLength = [1, 1] ∧
    ([0x45, 0x46, 0x47, 0x50, 0x54, 0x55, 0x56] : List Byte).map instrLength = [2, 2, 2, 2, 2, 2, 2] ∧
    ([0x82, 0x84, 0xA0, 0xA2, 0xA7] : List Byte).map instrLength = [3, 3, 3, 3, 3] := by decide

/-- A configuration outside R7 is refused by name. -/
theorem decode_refuses_bad_table :
    decode { Config.reference with opcodes := { Opcodes.reference with add := 0x20 } } [0x20, 0, 1] =
      .error (.operandMismatch 0x20) := rfl

/-- The table's words: bit 0 is the least significant bit of the first byte, and a later byte's bits count on. -/
theorem table_words :
    decodeTableWord 24 0xFF02A0 = some (.add 2 255) ∧ decodeTableWord 8 0xFF02A0 = some (.add 0 0) ∧
    decodeTableWord 16 0x0345 = some (.push 3) ∧ decodeTableWord 8 0x01 = some .halt ∧ decodeTableWord 8 0x00 = none := by
  decide

/-- A word placed at reset runs as the first instruction: LDI R0, 8 (program P1, cycle 1). -/
theorem fetch_word_runs_first :
    after (fun t => (t.regs[0], t.pc, t.status)) (State.reset.withFetchWord 24 0x080082) = some (8, 3, .running) := by
  decide

/-! ### One step of each instruction -/

/-- B1-1 -/
theorem test_add_wraps :
    after (fun t => (t.regs[0], t.regs[1], t.pc, t.fl)) (reg 0 200 (reg 1 100 (loaded 0 [0xA0, 0, 1]))) =
      some (44, 100, 3, 0) := by decide
/-- B1-7 -/
theorem test_add_second_index_faults :
    after (fun t => (t.status, t.pc)) (loaded 0 [0xA0, 0, 9]) = some (.faulted (.invalidRegister 9), 0) := by decide
/-- B2-1 -/
theorem test_multiply_emits :
    after (fun t => (t.out, t.regs[0], t.pc)) (reg 0 12 (reg 1 25 (loaded 0 [0xA2, 0, 1]))) =
      some ([.mulResult 44], 12, 3) := by decide
/-- B2-3 -/
theorem test_multiply_drops_high_bits :
    after (fun t => t.out) (reg 0 255 (reg 1 255 (loaded 0 [0xA2, 0, 1]))) = some [.mulResult 1] := by decide
/-- B3-3, B3-5 -/
theorem test_compare_is_unsigned_and_clears :
    after (fun t => t.fl) (reg 0 1 (reg 1 255 (loaded 0 [0xA7, 0, 1]))) = some 0x04 ∧
    after (fun t => t.fl) (flags 1 (reg 0 5 (reg 1 7 (loaded 0 [0xA7, 0, 1])))) = some 0x04 := by decide
/-- B3-5 and B3-6, sticky -/
theorem test_compare_sticky :
    after (fun t => t.fl) (configured { Config.reference with flagsSticky := true }
      (flags 1 (reg 0 5 (reg 1 7 (loaded 0 [0xA7, 0, 1]))))) = some 0x05 ∧
    after (fun t => t.fl) (configured { Config.reference with flagsSticky := true }
      (flags 6 (loaded 0 [0xA7, 0, 1]))) = some 0x07 := by decide
/-- B4-3 -/
theorem test_loadImmediate_moves_stack :
    after (fun t => (t.sp, t.pc)) (loaded 0 [0x82, 7, 0x10]) = some (16, 3) := by decide
/-- B4-4 -/
theorem test_loadImmediate_index_faults :
    after (fun t => t.status) (loaded 0 [0x82, 8, 0x55]) = some (.faulted (.invalidRegister 8)) := by decide
/-- B4-5 -/
theorem test_store_copies_to_second :
    after (fun t => (t.regs[1], t.regs[2], t.pc, t.mem)) (reg 1 0x2A (loaded 0 [0x84, 1, 2])) =
      some (0x2A, 0x2A, 3, [(0, 0x84), (1, 1), (2, 2)]) := by decide
/-- B4-8 -/
theorem test_store_checks_source_first :
    after (fun t => t.status) (loaded 0 [0x84, 9, 0xC8]) = some (.faulted (.invalidRegister 9)) := by decide
/-- B5-2 -/
theorem test_push_stack_pointer :
    after (fun t => (t.sp, t.mem.read 0xF3, t.pc)) (loaded 6 [0x45, 7]) = some (243, 243, 8) := by decide
/-- B5-3, B5-8 -/
theorem test_push_overflows :
    after (fun t => (t.status, t.sp)) (reg 7 0x11 (loaded 0x10 [0x45, 0])) =
      some (.faulted (.stackOverflow 0x11), 0x11) ∧
    after (fun t => t.status) (reg 7 0 (loaded 0x10 [0x45, 9])) = some (.faulted (.stackOverflow 0)) := by decide
/-- B6-6 -/
theorem test_pop_into_stack_pointer_wraps :
    after (fun t => t.sp) (reg 7 243 { loaded 0 [0x46, 7] with mem := [(0, 0x46), (1, 7), (0xF3, 0xFF)] }) = some 0 := by
  decide
/-- B6-8 -/
theorem test_pop_tests_stack_first :
    after (fun t => t.status) (reg 7 255 (loaded 0 [0x46, 8])) = some (.faulted (.stackUnderflow 255)) := by decide
/-- B7-2 -/
theorem test_call_return_address_wraps :
    after (fun t => (t.sp, t.mem.read 0xF3, t.pc)) (reg 2 14 (loaded 254 [0x50, 2])) = some (243, 0, 14) := by decide
/-- B7-3 -/
theorem test_call_through_stack_pointer :
    after (fun t => (t.sp, t.mem.read 0xF3, t.pc)) (loaded 9 [0x50, 7]) = some (243, 11, 243) := by decide
/-- B8-1 -/
theorem test_return_pops :
    after (fun t => (t.sp, t.pc)) (reg 7 243 { loaded 17 [0x11] with mem := [(17, 0x11), (0xF3, 11)] }) =
      some (244, 11) := by decide
/-- B8-4 -/
theorem test_return_in_last_cell : after (fun t => (t.sp, t.pc)) (loaded 255 [0x11]) = some (245, 0) := by decide
/-- B9-2 -/
theorem test_print_stack_pointer :
    after (fun t => (t.out, t.pc)) (loaded 0 [0x47, 7]) = some ([.observe 244], 2) := by decide
/-- B9-3 -/
theorem test_print_index_faults :
    after (fun t => (t.out, t.status)) (loaded 0 [0x47, 255]) = some ([], .faulted (.invalidRegister 255)) := by decide
/-- B9-5 -/
theorem test_halt_keeps_pc : after (fun t => (t.status, t.pc)) (loaded 255 [0x01]) = some (.halted, 255) := by decide
/-- B10-1 -/
theorem test_jump : after (fun t => t.pc) (reg 3 0x0C (loaded 0x14 [0x54, 3])) = some 0x0C := by decide
/-- B10-4: a target outside memory is no fault of the jump. -/
theorem test_jump_outside_memory :
    after (fun t => (t.pc, t.status)) (configured { Config.reference with memCapacity := 128 }
      (reg 0 200 (loaded 0 [0x54, 0]))) = some (200, .running) := by decide
/-- B11-1, B11-6 -/
theorem test_jumpIfEqual_taken :
    after (fun t => (t.pc, t.fl)) (flags 1 (reg 3 0x15 (loaded 0x12 [0x55, 3]))) = some (0x15, 1) ∧
    after (fun t => t.status) (flags 1 (loaded 0x12 [0x55, 9])) = some (.faulted (.invalidRegister 9)) := by decide
/-- B11-5 -/
theorem test_jumpIfEqual_not_taken :
    after (fun t => (t.pc, t.status)) (flags 4 (loaded 0x12 [0x55, 9])) = some (0x14, .running) := by decide
/-- B12-3 -/
theorem test_jumpIfNotEqual_taken :
    after (fun t => t.pc) (reg 3 0x0C (loaded 0x14 [0x56, 3])) = some 0x0C := by decide
/-- B12-4 -/
theorem test_jumpIfNotEqual_not_taken :
    after (fun t => (t.pc, t.status)) (flags 1 (loaded 0x14 [0x56, 9])) = some (0x16, .running) := by decide

/-! ### Fetching at the end of memory (B13), and the host's side -/

/-- B13-10 -/
theorem test_unknown_opcode_before_operands :
    after (fun t => t.status) (loaded 255 [0xFF]) = some (.faulted (.unknownOpcode 0xFF)) := by decide
/-- B13-11, B13-12 -/
theorem test_operand_outside_memory :
    after (fun t => t.status) (loaded 255 [0x47]) = some (.faulted (.outOfBounds 256)) ∧
    after (fun t => t.status) (loaded 254 [0x82, 0]) = some (.faulted (.outOfBounds 256)) := by decide
/-- B13-13, second cycle -/
theorem test_fetch_at_capacity :
    after (fun t => (t.status, t.pc)) { State.reset with pc := 256 } = some (.faulted (.outOfBounds 256), 256) := by decide
/-- B13-1: the empty machine's first step (P6e). -/
theorem test_zero_is_no_opcode : after (fun t => t.status) State.reset = some (.faulted (.unknownOpcode 0)) := by decide
/-- R38 -/
theorem test_reset_registers : State.reset.regs = #v[0, 0, 0, 0, 0, 0, 0, 244] := by decide
/-- P1's image, loaded. -/
theorem test_boot :
    (State.boot Config.reference [0x82, 0x00, 0x08, 0x47, 0x00, 0x01]).map (·.mem) =
      some [(0, 0x82), (2, 0x08), (3, 0x47), (5, 0x01)] := by decide
/-- R39: the trace does not fault beyond memory. -/
theorem test_trace_at_end : (loaded 255 [0x01]).trace.bytes = [some 1, none, none] := by decide
/-- R35: the two channels. -/
theorem test_channels :
    let s := { State.reset with out := [.mulResult 44, .observe 25, .observe 12] }
    s.observed = [25, 12] ∧ s.products = [44] := by decide

/-! ### Witnesses: for each statement with hypotheses, a state and operands that meet them (at a boundary where there is
one) -/

theorem witness_DecodeInvertsEncode : Instr.WellFormed Config.reference (.loadImmediate 255 255) := by decide

theorem witness_EncodeInvertsDecode :
    decode Config.reference [0xA0, 8, 255, 1] = .ok (.add 8 255, [1]) := rfl

theorem witness_ValidConfigurationEncodesEveryInstruction : Config.reference.Valid := wf_reference

theorem witness_LengthComesFromTopBits :
    decode Config.reference (0x55 :: [9, 0]) = .ok (.jumpIfEqual 9, [0]) ∧
    ∃ t, (loaded 0 [0x55, 9]).cfg.Valid ∧ (loaded 0 [0x55, 9]).status = .running ∧
      exec (.jumpIfEqual 9) (loaded 0 [0x55, 9]) = .next t ∧ t.status = .running ∧
      Instr.setsPc (.jumpIfEqual 9) (loaded 0 [0x55, 9]) = false :=
  ⟨rfl, _, by decide, rfl, rfl, rfl, by decide⟩

theorem witness_UnknownOpcodeBytesFault :
    Config.reference.Valid ∧ (loaded 255 [0xFF]).status = .running ∧
    (loaded 255 [0xFF]).pc < (loaded 255 [0xFF]).cfg.memCapacity ∧
    ∀ k ∈ Operation.all, (loaded 255 [0xFF]).cfg.opcodes.byteOf k ≠ (loaded 255 [0xFF]).mem.read (loaded 255 [0xFF]).pc := by
  decide

theorem witness_MemReadChecksBounds :
    255 < State.reset.cfg.memCapacity ∧ State.reset.cfg.memCapacity ≤ 256 := by decide

theorem witness_MemWriteReplacesOneCell :
    (loaded 3 [0x45, 7]).mem.wf ∧ 255 < (loaded 3 [0x45, 7]).cfg.memCapacity ∧
    (loaded 3 [0x45, 7]).cfg.memCapacity ≤ 256 := by decide

theorem witness_CanonicalMemoryIsDetermined :
    ∃ m n : Memory, m.wf ∧ n.wf ∧ (∀ a, m.read a = n.read a) ∧ m ≠ [] :=
  ⟨[(0, 1), (255, 2)], Memory.write [(0, 1)] 255 2, by decide, by decide, fun _ => rfl, by decide⟩

theorem witness_RegisterAccessIsChecked :
    8 ≤ (8 : Byte).toNat ∧ ((7 : Byte).toNat < 8 ∧ (7 : Byte).toNat = State.reset.cfg.spIndex.val) ∧
    ((6 : Byte).toNat < 8 ∧ (6 : Byte).toNat ≠ State.reset.cfg.spIndex.val) := by decide

/-- The operands of `AddWrapsIntoFirstRegister`, `MultiplyEmitsProduct`, `StoreCopiesFirstToSecond`. -/
theorem witness_two_register_operands :
    ((7 : Byte).toNat < 8 ∧ (0 : Byte).toNat < 8) ∧ 8 ≤ (8 : Byte).toNat ∧ ((7 : Byte).toNat < 8 ∧ 8 ≤ (8 : Byte).toNat) := by
  decide

theorem witness_CompareSetsOneCondition :
    State.reset.cfg.Valid ∧ ((7 : Byte).toNat < 8 ∧ (0 : Byte).toNat < 8) ∧ 8 ≤ (8 : Byte).toNat ∧
    ((7 : Byte).toNat < 8 ∧ 8 ≤ (255 : Byte).toNat) := by decide

theorem witness_LoadImmediateWritesRegister :
    (7 : Byte).toNat < 8 ∧ 8 ≤ (8 : Byte).toNat ∧
    (let s := loaded 255 [0x82]
     s.cfg.Valid ∧ s.status = .running ∧ s.pc < s.cfg.memCapacity ∧ s.mem.read s.pc = s.cfg.opcodes.loadImmediate ∧
       s.pc + 1 = s.cfg.memCapacity) ∧
    (let s := loaded 254 [0x82]
     s.cfg.Valid ∧ s.status = .running ∧ s.pc < s.cfg.memCapacity ∧ s.mem.read s.pc = s.cfg.opcodes.loadImmediate ∧
       s.pc + 2 = s.cfg.memCapacity) := by decide

theorem witness_LoadImmediateWritesRegister_property :
    let s := loaded 0 [0x82, 7, 8, 0x47, 7]
    s.cfg.Valid ∧ s.status = .running ∧ (7 : Byte).toNat < 8 ∧ HoldsInstr s s.pc (.loadImmediate 7 8) ∧
      HoldsInstr s (s.pc + 3) (.printRegister 7) :=
  ⟨by decide, rfl, by decide,
    fun k h => match k, h with
      | 0, _ => rfl
      | 1, _ => rfl
      | 2, _ => rfl,
    fun k h => match k, h with
      | 0, _ => rfl
      | 1, _ => rfl⟩

/-- `PushStoresBelowStackPointer` and `CallPushesReturnAddress`: success down to cell 0; overflow at the limit, and at
`pc`; a bad index; the write beyond memory (B5-9). -/
theorem witness_push_and_call :
    (let s := reg 7 1 (loaded 1 [0x45, 7])
     (7 : Byte).toNat < 8 ∧ ¬ s.PushOverflows ∧ s.sp.toNat - 1 < s.cfg.memCapacity) ∧
    (reg 7 0 (loaded 0 [0x45, 0])).PushOverflows ∧ (reg 7 1 (loaded 0 [0x45, 0])).PushOverflows ∧
    (¬ (loaded 0 [0x45, 8]).PushOverflows ∧ 8 ≤ (8 : Byte).toNat ∧
      (loaded 0 [0x45, 8]).sp.toNat - 1 < (loaded 0 [0x45, 8]).cfg.memCapacity) ∧
    (let s := configured { Config.reference with memCapacity := 128 } (reg 7 129 (loaded 0 [0x45, 0]))
     ¬ s.PushOverflows ∧ (0 : Byte).toNat < 8 ∧ s.cfg.memCapacity ≤ s.sp.toNat - 1) := by decide

/-- `PopLoadsFromStackPointer` and `ReturnPopsProgramCounter`: the last cell that can be popped, and the first `SP` that
underflows. -/
theorem witness_pop_and_return :
    (let s := reg 7 254 (loaded 0 [0x46, 0])
     ((6 : Byte).toNat < 8 ∧ ¬ s.PopUnderflows ∧ (6 : Byte).toNat ≠ s.cfg.spIndex.val) ∧
     (¬ s.PopUnderflows ∧ (7 : Byte).toNat = s.cfg.spIndex.val) ∧ (¬ s.PopUnderflows ∧ 8 ≤ (8 : Byte).toNat)) ∧
    (reg 7 255 (loaded 0 [0x46, 0])).PopUnderflows := by decide

/-- `JumpGoesToRegister` (the self-jump of B10-2 too) and `PrintRegisterEmitsItsValue`. -/
theorem witness_one_register_operand :
    (7 : Byte).toNat < 8 ∧ 8 ≤ (8 : Byte).toNat ∧
    (let s := reg 7 0x20 (loaded 0x20 [0x54, 7]); s.regs[(7 : Byte).toNat].toNat = s.pc) := by decide

/-- `JumpIfEqualTestsE` and `JumpIfNotEqualTestsE`: both values of E, both kinds of index. -/
theorem witness_conditional_jumps :
    (flags 5 State.reset).flagE = true ∧ (flags 6 State.reset).flagE = false ∧ (7 : Byte).toNat < 8 ∧
    8 ≤ (8 : Byte).toNat := by decide

theorem witness_HaltEndsTheRun :
    let s := loaded 255 [0x01]
    s.cfg.Valid ∧ s.status = .running ∧ HoldsInstr s s.pc .halt :=
  ⟨by decide, rfl, fun k h => match k, h with
    | 0, _ => rfl⟩

theorem witness_PopsFromResetUnderflowAfterVectorTable :
    State.reset.cfg.Valid ∧ State.reset.status = .running ∧ State.reset.sp = State.reset.cfg.spInit ∧
    (6 : Byte).toNat < 8 ∧ (6 : Byte).toNat ≠ State.reset.cfg.spIndex.val ∧ 11 ≤ State.reset.cfg.vectorTableSize := by
  decide

theorem witness_RegistersOutsideTheTableAreUnchanged :
    ∃ t, exec (.pop 0) State.reset = .next t ∧ ¬ Instr.writesReg State.reset.cfg (.pop 0) 6 ∧ t.status = .running :=
  ⟨_, rfl, by simp [Instr.writesReg, State.reset, State.resetOf, Config.reference], rfl⟩

theorem witness_OnlyPushAndCallStore :
    ∃ t, Instr.stores .ret = false ∧ exec .ret State.reset = .next t ∧ t.status = .running := ⟨_, rfl, rfl, rfl⟩

/-- Both clauses: a store, and a PUSH whose stack test fails. -/
theorem witness_PushAndCallStoreOneByte :
    (∃ t addr u, Instr.stores (.call 0) = true ∧ exec (.call 0) State.reset = .next t ∧
      stackDec State.reset = .ok (addr, u) ∧ t.status = .running) ∧
    (∃ t f, Instr.stores (.push 0) = true ∧ exec (.push 0) (reg 7 0 State.reset) = .next t ∧
      stackDec (reg 7 0 State.reset) = .error f) :=
  ⟨⟨_, _, _, rfl, rfl, rfl, rfl⟩, ⟨_, _, rfl, rfl, rfl⟩⟩

theorem witness_OnlyCompareWritesFlags :
    ∃ t, exec (.add 0 0) (flags 4 State.reset) = .next t ∧ (∀ a b, Instr.add 0 0 ≠ .compare a b) ∧
      (7 : Fin 8) ≠ State.reset.cfg.flE ∧ (7 : Fin 8) ≠ State.reset.cfg.flG ∧ (7 : Fin 8) ≠ State.reset.cfg.flL :=
  ⟨_, rfl, (fun _ _ h => nomatch h), by decide, by decide, by decide⟩

theorem witness_StatusChangesOnlyByHaltOrFault : ∃ t, exec .halt State.reset = .next t ∧ t.status = .halted :=
  ⟨_, rfl, rfl⟩

/-- The clauses of `OutputFollowsExecution`: an emitting cycle, a faulting one, a fetch that stops, a run. -/
theorem witness_OutputFollowsExecution :
    (∃ t, (loaded 0 [0x47, 7]).status = .running ∧ fetchInstr (loaded 0 [0x47, 7]) = .ok (.printRegister 7) ∧
      step (loaded 0 [0x47, 7]) = .next t ∧ t.status = .running) ∧
    (∃ t, (loaded 0 [0x47, 8]).status = .running ∧ fetchInstr (loaded 0 [0x47, 8]) = .ok (.printRegister 8) ∧
      step (loaded 0 [0x47, 8]) = .next t ∧ t.status = .faulted (.invalidRegister 8)) ∧
    (∃ t, State.reset.status = .running ∧ fetchInstr State.reset = .error (.unknownOpcode 0) ∧
      step State.reset = .next t) ∧
    (∃ t, Host.Core.run Sys2Proof.core 1 (loaded 0 [0x47, 7]) = .next t) :=
  ⟨⟨_, rfl, rfl, rfl, rfl⟩, ⟨_, rfl, rfl, rfl, rfl⟩, ⟨_, rfl, rfl, rfl⟩, ⟨_, rfl⟩⟩

/-- `FaultsArePrecise` and `InvalidRegisterComesFromAccessedOperand`, its fault clause and its completion clause. -/
theorem witness_faulting_step :
    (∃ t, (loaded 0 [0x46, 8]).status = .running ∧ step (loaded 0 [0x46, 8]) = .next t ∧
      exec (.pop 8) (loaded 0 [0x46, 8]) = .next t ∧ t.status = .faulted (.invalidRegister 8)) ∧
    (∃ t, exec (.pop 7) (loaded 0 [0x46, 7]) = .next t ∧ ∀ f, t.status ≠ .faulted f) :=
  ⟨⟨_, rfl, rfl, rfl, rfl⟩, ⟨_, rfl, fun _ h => by cases h⟩⟩

theorem witness_OnlyEqualFlagIsObserved :
    ∃ t, flagBit 0xFF (flags 1 State.reset).cfg.flE = (flags 1 State.reset).flagE ∧
      exec (.jumpIfEqual 0) (flags 1 State.reset) = .next t := ⟨_, by decide, rfl⟩

theorem witness_StepRunsDecodedInstruction :
    (loaded 254 [0x55, 9]).status = .running ∧
    decode (loaded 254 [0x55, 9]).cfg (fetchWindow (loaded 254 [0x55, 9])) = .ok (.jumpIfEqual 9, []) := ⟨rfl, rfl⟩

theorem witness_StepRunsInstructionInMemory :
    let s := loaded 253 [0xA7, 8, 255]
    s.status = .running ∧ Instr.WellFormed s.cfg (.compare 8 255) ∧ HoldsInstr s s.pc (.compare 8 255) :=
  ⟨rfl, by decide, fun k h => match k, h with
    | 0, _ => rfl
    | 1, _ => rfl
    | 2, _ => rfl⟩

/-- Both clauses of `FetchOutsideMemoryFaults`: `pc` at the first absent address; an operand one beyond the last cell. -/
theorem witness_FetchOutsideMemoryFaults :
    (let s := { State.reset with pc := 256 }
     s.cfg.Valid ∧ s.status = .running ∧ s.cfg.memCapacity ≤ s.pc) ∧
    (let s := loaded 254 [0x82, 0]
     s.pc < s.cfg.memCapacity ∧ s.mem.read s.pc = s.cfg.opcodes.byteOf .loadImmediate ∧
       s.cfg.memCapacity ≤ s.pc + Operation.arity .loadImmediate) := by decide

theorem witness_StepIsTotal : State.reset.cfg.Valid := wf_reference

theorem witness_EndedRunStaysPut :
    State.Ended { State.reset with status := .halted } ∧
    State.Ended { State.reset with status := .faulted (.outOfBounds 256) } := by decide

theorem witness_StepHaltsExactlyAtHalt :
    ∃ t, (loaded 0 [0x01]).status = .running ∧ step (loaded 0 [0x01]) = .next t ∧ t.status = .halted :=
  ⟨_, rfl, rfl, rfl⟩

/-- `StepKeepsInvariant`: a state with a stack, flags and a program that meets it and steps. -/
theorem witness_StepKeepsInvariant :
    (flags 2 (reg 7 1 (loaded 3 [0x45, 7]))).Inv ∧
    ∃ t, step (flags 2 (reg 7 1 (loaded 3 [0x45, 7]))) = .next t ∧ t.mem ≠ [] :=
  ⟨by decide, _, rfl, by decide⟩

theorem witness_ResetMeetsInvariant : { Config.reference with memCapacity := 1, vectorTableSize := 0 }.Valid := by decide

theorem witness_StepKeepsFaultRecordsTrue :
    ∃ t, (reg 7 0 (loaded 0 [0x45, 0])).FaultRecorded ∧ step (reg 7 0 (loaded 0 [0x45, 0])) = .next t ∧
      t.status = .faulted (.stackOverflow 0) :=
  ⟨_, (fun _ h => nomatch h), rfl, rfl⟩

theorem witness_EveryRunKeepsInvariant :
    ∃ s t, Config.reference.Valid ∧ State.boot Config.reference [0x47, 7] = some s ∧
      Host.Core.run Sys2Proof.core 1 s = .next t ∧ t.out = [.observe 244] :=
  ⟨_, _, wf_reference, rfl, rfl, by decide⟩

theorem witness_ResetRestoresEveryValue : State.reset.cfg.Valid ∧ (0 : Fin 8) ≠ State.reset.cfg.spIndex := by decide

theorem witness_BootLoadsImageAtZero :
    (let c := { Config.reference with memCapacity := 2 }
     c.memCapacity < [(1 : Byte), 2, 3].length ∧ [(1 : Byte), 2].length ≤ c.memCapacity) := by decide

/-- A push just above a limit of 8 leaves the cells below it alone. -/
theorem witness_CellsBelowStackLimitSurviveEveryRun :
    let s := configured { Config.reference with stackLimit := 8 } (reg 7 9 (loaded 0 [0x45, 7]))
    (∃ t, Host.Core.run Sys2Proof.core 1 s = .next t ∧ t.mem.read 8 = 8) ∧ 7 < s.cfg.stackLimit ∧
      ∃ t, step s = .next t :=
  ⟨⟨_, rfl, by decide⟩, by decide, ⟨_, rfl⟩⟩

theorem witness_PushThenPopMovesValue :
    let s := loaded 0 [0x45, 0, 0x46, 1]
    (0 : Byte).toNat < 8 ∧ (1 : Byte).toNat < 8 ∧ s.Inv ∧ s.status = .running ∧
    (0 : Byte).toNat ≠ s.cfg.spIndex.val ∧ (1 : Byte).toNat ≠ s.cfg.spIndex.val ∧
    HoldsInstr s s.pc (.push 0) ∧ HoldsInstr s (s.pc + 2) (.pop 1) ∧ ¬ s.PushOverflows ∧
    s.sp.toNat < s.cfg.memCapacity ∧ s.sp.toNat ≠ s.pc + 3 ∧ s.sp.toNat ≠ s.pc + 4 :=
  ⟨by decide, by decide, by decide, rfl, by decide, by decide,
    fun k h => match k, h with
      | 0, _ => rfl
      | 1, _ => rfl,
    fun k h => match k, h with
      | 0, _ => rfl
      | 1, _ => rfl,
    by decide, by decide, by decide, by decide⟩

/-- A CALL at 253, the last address the property covers, to a RETURN at 17. -/
theorem witness_CallThenReturnComesBack :
    let s := reg 2 17 { State.reset with pc := 253, mem := [(17, 0x11), (253, 0x50), (254, 2)] }
    ∃ u t, s.Inv ∧ s.status = .running ∧ s.pc ≤ 253 ∧ HoldsInstr s s.pc (.call 2) ∧ step s = .next u ∧
      u.status = .running ∧ HoldsInstr u u.pc .ret ∧ step u = .next t ∧ t.status = .running :=
  ⟨_, _, by decide, rfl, by decide,
    fun k h => match k, h with
      | 0, _ => rfl
      | 1, _ => rfl,
    rfl, rfl,
    fun k h => match k, h with
      | 0, _ => rfl,
    rfl, rfl⟩

/-- Both clauses of `CompareThenBranchIsTaken`. -/
theorem witness_CompareThenBranchIsTaken :
    (let s := reg 0 5 (reg 1 5 (loaded 0 [0xA7, 0, 1, 0x55, 3]))
     s.cfg.Valid ∧ s.status = .running ∧ HoldsInstr s s.pc (.compare 0 1) ∧
       s.regs[(0 : Byte).toNat] = s.regs[(1 : Byte).toNat] ∧ HoldsInstr s (s.pc + 3) (.jumpIfEqual 3)) ∧
    (let s := flags 1 (reg 0 5 (reg 1 7 (loaded 0 [0xA7, 0, 1, 0x56, 3])))
     s.cfg.Valid ∧ s.status = .running ∧ HoldsInstr s s.pc (.compare 0 1) ∧
       s.regs[(0 : Byte).toNat] ≠ s.regs[(1 : Byte).toNat] ∧ (s.cfg.flagsSticky = false ∨ s.flagE = false) ∧
       HoldsInstr s (s.pc + 3) (.jumpIfNotEqual 3)) :=
  ⟨⟨by decide, rfl,
    fun k h => match k, h with
      | 0, _ => rfl
      | 1, _ => rfl
      | 2, _ => rfl,
    by decide,
    fun k h => match k, h with
      | 0, _ => rfl
      | 1, _ => rfl⟩,
   ⟨by decide, rfl,
    fun k h => match k, h with
      | 0, _ => rfl
      | 1, _ => rfl
      | 2, _ => rfl,
    by decide, by decide,
    fun k h => match k, h with
      | 0, _ => rfl
      | 1, _ => rfl⟩⟩

end Sys2Proof.Tests
end

/-! ### Memory: the family 20_memory.md -/

namespace Sys2Proof.Machine

/-- Settles O7: the two inversion laws of `memRead`, read from right to left, one on each side of the bound. -/
theorem memReadChecksBounds : Obligations.MemReadChecksBounds := by
  unfold Obligations.MemReadChecksBounds
  intro s addr
  constructor
  · intro hInside
    exact memRead_ok_iff.mpr ⟨hInside, rfl⟩
  · intro hOutside
    exact memRead_error_iff.mpr ⟨hOutside, rfl⟩

end Sys2Proof.Machine

/-! ### Lengths: the family 30_encoding.md -/

namespace Sys2Proof

/-! #### The length field (R92, R93) -/

/-- The field `NOPS` is the quotient of the opcode byte by 64: bits 7:6 are its two topmost bits (R92). -/
theorem operandCount_eq_div (op : Byte) : operandCount op = op.toNat / 64 := by
  simp [operandCount, Nat.shiftRight_eq_div_pow]

/-- The length in the form in which R93 states it. -/
theorem instrLength_eq_div_mod (op : Byte) : instrLength op = op.toNat / 64 % 4 + 1 := by
  have hTwoBits : op.toNat / 64 < 4 := by have := op.isLt; omega
  rw [instrLength, operandCount_eq_div, Nat.mod_eq_of_lt hTwoBits]

/-- Under a valid table the length of an operation's opcode byte is one more than the operation's operand count (R7). -/
theorem instrLength_byteOf {t : Opcodes} (ht : t.Valid) (k : Operation) : instrLength (t.byteOf k) = k.arity + 1 := by
  rw [instrLength, ht.2 k (mem_all k)]

/-! #### What the decoder accepts -/

@[simp] theorem withNoOperand_eq_some_iff {i j : Instr} {bs : List Byte} :
    withNoOperand i bs = some j ↔ bs = [] ∧ i = j := by
  cases bs <;> simp [withNoOperand]

@[simp] theorem withOneOperand_eq_some_iff {f : Byte → Instr} {j : Instr} {bs : List Byte} :
    withOneOperand f bs = some j ↔ ∃ a, bs = [a] ∧ f a = j := by
  rcases bs with _ | ⟨a, _ | ⟨b, bs⟩⟩ <;> simp [withOneOperand]

@[simp] theorem withTwoOperands_eq_some_iff {f : Byte → Byte → Instr} {j : Instr} {bs : List Byte} :
    withTwoOperands f bs = some j ↔ ∃ a b, bs = [a, b] ∧ f a b = j := by
  rcases bs with _ | ⟨a, _ | ⟨b, _ | ⟨d, bs⟩⟩⟩ <;> simp [withTwoOperands]

/-- An instruction built from operand bytes holds exactly those bytes, in their order (R91). -/
theorem operands_of_buildInstr {k : Operation} {bs : List Byte} {i : Instr} (h : buildInstr k bs = some i) :
    i.operands = bs := by
  cases k <;> simp only [buildInstr, withNoOperand_eq_some_iff, withOneOperand_eq_some_iff,
    withTwoOperands_eq_some_iff] at h
  case ret | halt => obtain ⟨rfl, rfl⟩ := h; rfl
  case push | pop | call | jump | jumpIfEqual | jumpIfNotEqual | printRegister => obtain ⟨a, rfl, rfl⟩ := h; rfl
  case add | multiply | compare | loadImmediate | store => obtain ⟨a, b, rfl, rfl⟩ := h; rfl

/-- Everything the decoder asks of bytes that decode: an opcode of the table, whose bits 7:6 count the operation's
operands, and that many further bytes, from which the instruction is built; what follows them is returned (R98). -/
theorem decode_cons_ok_iff {c : Config} {op : Byte} {bytes rest : List Byte} {i : Instr} :
    decode c (op :: bytes) = .ok (i, rest) ↔
      ∃ k, lookupOpcode c.opcodes op = some k ∧ operandCount op = k.arity ∧ operandCount op ≤ bytes.length ∧
        buildInstr k (bytes.take (operandCount op)) = some i ∧ rest = bytes.drop (operandCount op) := by
  cases hLookup : lookupOpcode c.opcodes op with
  | none => simp [decode, hLookup]
  | some k =>
    simp only [decode, hLookup, Option.some.injEq, exists_eq_left']
    split
    · next hMismatch => simp [hMismatch]
    · next hMatch =>
      rw [not_not.1 hMatch]
      split
      · next hShort => simp [Nat.not_le.2 hShort]
      · next hLong =>
        cases buildInstr k (bytes.take k.arity) <;> simp [Nat.not_lt.1 hLong, eq_comm]

/-- Bytes that decode give the instruction as many operand bytes as bits 7:6 of the opcode byte say. -/
theorem operands_length_of_decode {c : Config} {op : Byte} {bytes rest : List Byte} {i : Instr}
    (h : decode c (op :: bytes) = .ok (i, rest)) : i.operands.length = operandCount op := by
  obtain ⟨k, -, -, hEnough, hBuild, -⟩ := decode_cons_ok_iff.1 h
  rw [operands_of_buildInstr hBuild, List.length_take, Nat.min_eq_left hEnough]

/-- Decoding consumes exactly the length of the opcode byte (R93). -/
theorem decode_consumes_instrLength {c : Config} {op : Byte} {bytes rest : List Byte} {i : Instr}
    (h : decode c (op :: bytes) = .ok (i, rest)) : (op :: bytes).length = instrLength op + rest.length := by
  obtain ⟨k, -, -, hEnough, -, rfl⟩ := decode_cons_ok_iff.1 h
  simp only [List.length_cons, List.length_drop, instrLength]
  omega

end Sys2Proof

namespace Sys2Proof.Machine

/-! #### Where `pc` stands after an instruction that completes RUNNING -/

/-- A sequence of two rules succeeds when the first does and then the second. -/
theorem bind_eq_ok_iff {α β : Type} {x : Except Fault α} {f : α → Except Fault β} {b : β} :
    (x >>= f) = .ok b ↔ ∃ a, x = .ok a ∧ f a = .ok b := by
  cases x <;> simp

/-- An instruction that ends RUNNING raised no fault. -/
theorem rule_ok_of_commit_running {s t : State} {r : Except Fault State} (h : commit s r = .next t)
    (hRun : t.status = .running) : r = .ok t := by
  rcases commit_cases h with hOk | ⟨f, -, rfl⟩
  · exact hOk
  · simp at hRun

theorem writeReg_pc {s t : State} {i v : Byte} (h : writeReg s i v = .ok t) : t.pc = s.pc := by
  rcases writeReg_cases s i v with ⟨_, hWrite⟩ | ⟨_, hFault⟩
  · rw [hWrite] at h
    cases h
    rfl
  · simp [hFault] at h

theorem memWrite_pc {s t : State} {addr : Nat} {v : Byte} (h : memWrite s addr v = .ok t) : t.pc = s.pc := by
  rw [(memWrite_ok_iff.1 h).2]

theorem stackDec_pc {s t : State} {addr : Nat} (h : stackDec s = .ok (addr, t)) : t.pc = s.pc := by
  obtain ⟨-, -, -, rfl⟩ := stackDec_ok_iff.1 h
  rfl

/-- A rule whose last act is to advance `pc` moves it by that amount, when what goes before leaves it alone. -/
theorem pc_of_advance {s u t : State} {n : Nat} (hu : u.pc = s.pc)
    (h : (pure (u.advance n) : Except Fault State) = .ok t) : t.pc = s.pc + n := by
  cases h
  rw [State.advance_pc, hu]

section

variable {a b : Byte} {s t : State} (hRun : t.status = .running)
include hRun

theorem execAdd_pc (h : execAdd a b s = .next t) : t.pc = s.pc + 3 := by
  obtain ⟨⟨va, vb⟩, -, hWrite⟩ := bind_eq_ok_iff.1 (rule_ok_of_commit_running h hRun)
  obtain ⟨u, hu, hEnd⟩ := bind_eq_ok_iff.1 hWrite
  exact pc_of_advance (writeReg_pc hu) hEnd

theorem execMultiply_pc (h : execMultiply a b s = .next t) : t.pc = s.pc + 3 := by
  obtain ⟨⟨va, vb⟩, -, hEnd⟩ := bind_eq_ok_iff.1 (rule_ok_of_commit_running h hRun)
  exact pc_of_advance (State.emit_pc s _) hEnd

theorem execCompare_pc (h : execCompare a b s = .next t) : t.pc = s.pc + 3 := by
  obtain ⟨⟨va, vb⟩, -, hEnd⟩ := bind_eq_ok_iff.1 (rule_ok_of_commit_running h hRun)
  exact pc_of_advance (State.setFl_pc s _) hEnd

theorem execLoadImmediate_pc (h : execLoadImmediate a b s = .next t) : t.pc = s.pc + 3 := by
  obtain ⟨u, hu, hEnd⟩ := bind_eq_ok_iff.1 (rule_ok_of_commit_running h hRun)
  exact pc_of_advance (writeReg_pc hu) hEnd

theorem execStore_pc (h : execStore a b s = .next t) : t.pc = s.pc + 3 := by
  obtain ⟨v, -, hWrite⟩ := bind_eq_ok_iff.1 (rule_ok_of_commit_running h hRun)
  obtain ⟨u, hu, hEnd⟩ := bind_eq_ok_iff.1 hWrite
  exact pc_of_advance (writeReg_pc hu) hEnd

theorem execPush_pc (h : execPush a s = .next t) : t.pc = s.pc + 2 := by
  obtain ⟨⟨addr, s₁⟩, hDec, hRead⟩ := bind_eq_ok_iff.1 (rule_ok_of_commit_running h hRun)
  obtain ⟨v, -, hStore⟩ := bind_eq_ok_iff.1 hRead
  obtain ⟨u, hu, hEnd⟩ := bind_eq_ok_iff.1 hStore
  exact pc_of_advance ((memWrite_pc hu).trans (stackDec_pc hDec)) hEnd

theorem execPop_pc (h : execPop a s = .next t) : t.pc = s.pc + 2 := by
  obtain ⟨addr, -, hRead⟩ := bind_eq_ok_iff.1 (rule_ok_of_commit_running h hRun)
  obtain ⟨v, -, hWrite⟩ := bind_eq_ok_iff.1 hRead
  obtain ⟨u, hu, hEnd⟩ := bind_eq_ok_iff.1 hWrite
  exact pc_of_advance ((State.setSp_pc u _).trans (writeReg_pc hu)) hEnd

theorem execPrintRegister_pc (h : execPrintRegister a s = .next t) : t.pc = s.pc + 2 := by
  obtain ⟨v, -, hEnd⟩ := bind_eq_ok_iff.1 (rule_ok_of_commit_running h hRun)
  exact pc_of_advance (State.emit_pc s _) hEnd

end

/-- A JUMP_IF_EQUAL that is not taken goes on behind its operand byte (R171). -/
theorem execJumpIfEqual_pc_not_taken {a : Byte} {s t : State} (hE : s.flagE = false)
    (h : execJumpIfEqual a s = .next t) : t.pc = s.pc + 2 := by
  simp only [execJumpIfEqual, hE, Bool.false_eq_true, if_false, commit_ok] at h
  cases h
  rfl

/-- A JUMP_IF_NOT_EQUAL that is not taken goes on behind its operand byte (R172). -/
theorem execJumpIfNotEqual_pc_not_taken {a : Byte} {s t : State} (hE : s.flagE = true)
    (h : execJumpIfNotEqual a s = .next t) : t.pc = s.pc + 2 := by
  simp only [execJumpIfNotEqual, hE, Bool.true_eq_false, if_false, commit_ok] at h
  cases h
  rfl

/-- An instruction that completes RUNNING and does not set `pc` explicitly moves it past the opcode byte and the operand
bytes (R27). -/
theorem exec_pc_of_not_setsPc {i : Instr} {s t : State} (h : exec i s = .next t) (hRun : t.status = .running)
    (hSets : i.setsPc s = false) : t.pc = s.pc + (i.operation.arity + 1) := by
  cases i with
  | add a b => exact execAdd_pc hRun h
  | multiply a b => exact execMultiply_pc hRun h
  | compare a b => exact execCompare_pc hRun h
  | loadImmediate a imm => exact execLoadImmediate_pc hRun h
  | store a b => exact execStore_pc hRun h
  | push a => exact execPush_pc hRun h
  | pop a => exact execPop_pc hRun h
  | jumpIfEqual a => exact execJumpIfEqual_pc_not_taken hSets h
  | jumpIfNotEqual a => exact execJumpIfNotEqual_pc_not_taken (by simpa [Instr.setsPc] using hSets) h
  | printRegister a => exact execPrintRegister_pc hRun h
  | call a | ret | jump a | halt => simp [Instr.setsPc] at hSets

/-- Settles O5: the length field read as a quotient, the decoder's inversion law, and the advance of `pc` by each
instruction's own rule, which a valid opcode table makes the length of its opcode byte. -/
theorem lengthComesFromTopBits : Obligations.LengthComesFromTopBits := by
  unfold Obligations.LengthComesFromTopBits
  refine ⟨instrLength_eq_div_mod, ?_, ?_⟩
  · intro c op bytes rest i hDecode
    refine ⟨decode_consumes_instrLength hDecode, ?_⟩
    rw [instrLength, operands_length_of_decode hDecode]
  · intro i s t hValid _ hExec hRun hSets
    obtain ⟨-, -, -, -, hOpcodes, -⟩ := hValid
    rw [instrLength_byteOf hOpcodes]
    exact exec_pc_of_not_setsPc hExec hRun hSets

end Sys2Proof.Machine

/-! ### Data moves: the family 41_data_move.md -/

namespace Sys2Proof

/-! #### The decoder under a valid opcode table (R7, R97) -/

theorem arity_le_two (k : Operation) : k.arity ≤ 2 := by cases k <;> decide

/-- The operand bytes of every instruction number what its format gives it (R91). -/
theorem operands_length_eq_arity (i : Instr) : i.operands.length = i.operation.arity := by
  cases i with
  | add a b => exact Laws.OperandBytes.add a b
  | multiply a b => exact Laws.OperandBytes.multiply a b
  | compare a b => exact Laws.OperandBytes.compare a b
  | loadImmediate a imm => exact Laws.OperandBytes.loadImmediate a imm
  | store a b => exact Laws.OperandBytes.store a b
  | push a => exact Laws.OperandBytes.push a
  | pop a => exact Laws.OperandBytes.pop a
  | call a => exact Laws.OperandBytes.call a
  | ret => exact Laws.OperandBytes.ret
  | jump a => exact Laws.OperandBytes.jump a
  | jumpIfEqual a => exact Laws.OperandBytes.jumpIfEqual a
  | jumpIfNotEqual a => exact Laws.OperandBytes.jumpIfNotEqual a
  | printRegister a => exact Laws.OperandBytes.printRegister a
  | halt => exact Laws.OperandBytes.halt

/-- Every instruction is built again from its operation and its operand bytes (R91). -/
theorem buildInstr_operands (i : Instr) : buildInstr i.operation i.operands = some i := by
  cases i with
  | add a b => exact Laws.RebuiltFromOperands.add a b
  | multiply a b => exact Laws.RebuiltFromOperands.multiply a b
  | compare a b => exact Laws.RebuiltFromOperands.compare a b
  | loadImmediate a imm => exact Laws.RebuiltFromOperands.loadImmediate a imm
  | store a b => exact Laws.RebuiltFromOperands.store a b
  | push a => exact Laws.RebuiltFromOperands.push a
  | pop a => exact Laws.RebuiltFromOperands.pop a
  | call a => exact Laws.RebuiltFromOperands.call a
  | ret => exact Laws.RebuiltFromOperands.ret
  | jump a => exact Laws.RebuiltFromOperands.jump a
  | jumpIfEqual a => exact Laws.RebuiltFromOperands.jumpIfEqual a
  | jumpIfNotEqual a => exact Laws.RebuiltFromOperands.jumpIfNotEqual a
  | printRegister a => exact Laws.RebuiltFromOperands.printRegister a
  | halt => exact Laws.RebuiltFromOperands.halt

/-- A valid table gives two operations two bytes (R7). -/
theorem byteOf_injective {t : Opcodes} (ht : t.Valid) {j k : Operation} (h : t.byteOf j = t.byteOf k) : j = k :=
  List.inj_on_of_nodup_map ht.1 (mem_all j) (mem_all k) h

/-- A valid table finds each operation by its byte. -/
theorem lookupOpcode_byteOf_of_valid {t : Opcodes} (ht : t.Valid) (k : Operation) :
    lookupOpcode t (t.byteOf k) = some k :=
  lookupOpcode_byteOf fun _ _ => byteOf_injective ht

theorem wellFormed_of_valid {c : Config} (hc : c.Valid) (i : Instr) : i.WellFormed c := by
  obtain ⟨-, -, -, -, hTable, -⟩ := hc
  refine ⟨?_, fun _ _ => byteOf_injective hTable⟩
  rw [hTable.2 _ (mem_all _), operands_length_eq_arity]

/-- The decoder reads a well-formed instruction back from its bytes and leaves what follows them. -/
theorem decode_encode_append {c : Config} {i : Instr} (hi : i.WellFormed c) (rest : List Byte) :
    decode c (encode c i ++ rest) = .ok (i, rest) := by
  obtain ⟨hCount, hUnique⟩ := hi
  rw [encode, List.cons_append]
  refine decode_cons_ok_iff.2 ⟨i.operation, lookupOpcode_byteOf hUnique, ?_, ?_, ?_, ?_⟩
  · rw [hCount, operands_length_eq_arity]
  · simp [hCount]
  · rw [hCount, List.take_left, buildInstr_operands]
  · rw [hCount, List.drop_left]

/-- An opcode of a valid table with too few bytes after it is cut off where the bytes end (R98 step 4). -/
theorem decode_truncated_of_short {c : Config} (hc : c.opcodes.Valid) {k : Operation} {bytes : List Byte}
    (hShort : bytes.length < k.arity) :
    decode c (c.opcodes.byteOf k :: bytes) = .error (.truncated (bytes.length + 1)) := by
  have hCount : operandCount (c.opcodes.byteOf k) = k.arity := hc.2 k (mem_all k)
  simp [decode, lookupOpcode_byteOf_of_valid hc, hCount, hShort]

end Sys2Proof

namespace Sys2Proof.Machine

/-! #### From the bytes in memory to the instruction's rule (R98) -/

/-- Bytes that stand in memory from an address on begin every window there that is long enough for them. -/
theorem isPrefix_readBytes_of_memRead {s : State} {bs : List Byte} {n addr : Nat} (hFit : bs.length ≤ n)
    (hRead : ∀ k (h : k < bs.length), memRead s (addr + k) = .ok bs[k]) : bs <+: readBytes s n addr := by
  induction bs generalizing n addr with
  | nil => exact List.nil_prefix
  | cons v vs ih =>
    cases n with
    | zero => simp at hFit
    | succ n =>
      have hFirst : memRead s addr = .ok v := hRead 0 (by simp)
      have hRest : vs <+: readBytes s n (addr + 1) := by
        refine ih (by simpa using hFit) fun k hk => ?_
        rw [Nat.add_assoc, Nat.add_comm 1]
        exact hRead (k + 1) (by simpa using hk)
      rw [readBytes, hFirst]
      exact List.cons_prefix_cons.2 ⟨rfl, hRest⟩

theorem encode_length_le_three (c : Config) (i : Instr) : (encode c i).length ≤ 3 := by
  have hArity := arity_le_two i.operation
  rw [encode, List.length_cons, operands_length_eq_arity]
  omega

theorem fetchInstr_of_holdsInstr {s : State} {i : Instr} (hi : i.WellFormed s.cfg) (hHolds : HoldsInstr s s.pc i) :
    fetchInstr s = .ok i := by
  obtain ⟨rest, hWindow⟩ : encode s.cfg i <+: fetchWindow s :=
    isPrefix_readBytes_of_memRead (encode_length_le_three s.cfg i) hHolds
  rw [fetchInstr, ← hWindow, decode_encode_append hi]

/-- A RUNNING core steps by the rule of the instruction whose bytes stand at `pc`. -/
theorem step_of_holdsInstr {s : State} {i : Instr} (hRun : s.status = .running) (hi : i.WellFormed s.cfg)
    (hHolds : HoldsInstr s s.pc i) : step s = exec i s :=
  step_of_fetch hRun (fetchInstr_of_holdsInstr hi hHolds)

/-- Which instruction stands at an address depends on memory and configuration only. -/
theorem HoldsInstr.of_same_mem {s t : State} {addr : Nat} {i : Instr} (hHolds : HoldsInstr s addr i)
    (hCfg : t.cfg = s.cfg) (hMem : t.mem = s.mem) : HoldsInstr t addr i := by
  simpa only [HoldsInstr, memRead, hCfg, hMem] using hHolds

/-! #### An operand byte beyond memory (R98 step 4, R209) -/

theorem fetchWindow_eq_cons {s : State} (hPc : s.pc < s.cfg.memCapacity) :
    fetchWindow s = s.mem.read s.pc :: readBytes s 2 (s.pc + 1) := by
  rw [fetchWindow, readBytes, memRead_ok_iff.2 ⟨hPc, rfl⟩]

/-- A RUNNING core at an opcode whose operand bytes do not all exist faults at the first address beyond memory. -/
theorem step_of_operands_beyond_memory {s : State} {k : Operation} (hTable : s.cfg.opcodes.Valid)
    (hRun : s.status = .running) (hPc : s.pc < s.cfg.memCapacity) (hOp : s.mem.read s.pc = s.cfg.opcodes.byteOf k)
    (hBeyond : s.cfg.memCapacity ≤ s.pc + k.arity) :
    step s = .next (raiseFault (.outOfBounds s.cfg.memCapacity) s) := by
  have hArity := arity_le_two k
  have hLength : (readBytes s 2 (s.pc + 1)).length = s.cfg.memCapacity - (s.pc + 1) := by
    rw [readBytes_length]
    omega
  have hFetch : fetchInstr s = .error (.truncated (s.cfg.memCapacity - (s.pc + 1) + 1)) := by
    rw [fetchInstr, fetchWindow_eq_cons hPc, hOp, decode_truncated_of_short hTable (by omega), hLength]
  have hFirstAbsent : s.pc + (s.cfg.memCapacity - (s.pc + 1) + 1) = s.cfg.memCapacity := by omega
  rw [step_of_stop hRun hFetch, fetchStop, hFirstAbsent]

/-! #### LOAD_IMMEDIATE (R140) and the PRINT_REGISTER that follows it (R180) -/

/-- LOAD_IMMEDIATE into a register that exists. -/
theorem exec_loadImmediate_of_lt {a : Byte} (imm : Byte) (s : State) (ha : a.toNat < 8) :
    exec (.loadImmediate a imm) s = .next { s with regs := s.regs.set a.toNat imm, pc := s.pc + 3 } := by
  rw [exec, execLoadImmediate, writeReg_of_lt ha]
  rfl

/-- LOAD_IMMEDIATE into an index that names no register. -/
theorem exec_loadImmediate_of_ge {a : Byte} (imm : Byte) (s : State) (ha : 8 ≤ a.toNat) :
    exec (.loadImmediate a imm) s = .next (raiseFault (.invalidRegister a) s) := by
  rw [exec, execLoadImmediate, writeReg_of_ge ha]
  rfl

/-- PRINT_REGISTER of a register that exists. -/
theorem exec_printRegister_of_lt {a : Byte} (s : State) (ha : a.toNat < 8) :
    exec (.printRegister a) s =
      .next { s with out := s.out ++ [.observe s.regs[a.toNat]], pc := s.pc + 2 } := by
  rw [exec, execPrintRegister, regOperand, readReg_of_lt ha]
  rfl

/-- A run of two steps, given both. -/
theorem run_two {s u t : State} (hFirst : step s = .next u) (hSecond : step u = .next t) :
    Host.Core.run Sys2Proof.core 2 s = .next t := by
  rw [run_succ, hFirst]
  dsimp only
  rw [run_succ, hSecond]
  rfl

/-- The source's property of R140: the immediate that was loaded is what the next instruction prints. -/
theorem run_loadImmediate_printRegister {s : State} {r v : Byte} (hc : s.cfg.Valid) (hRun : s.status = .running)
    (hr : r.toNat < 8) (hLoad : HoldsInstr s s.pc (.loadImmediate r v))
    (hPrint : HoldsInstr s (s.pc + 3) (.printRegister r)) :
    Host.Core.run Sys2Proof.core 2 s =
      .next { s with regs := s.regs.set r.toNat v, out := s.out ++ [.observe v], pc := s.pc + 5 } := by
  have hFirst := (step_of_holdsInstr hRun (wellFormed_of_valid hc _) hLoad).trans (exec_loadImmediate_of_lt v s hr)
  refine run_two hFirst ?_
  refine Eq.trans (step_of_holdsInstr hRun (wellFormed_of_valid hc _) (hPrint.of_same_mem rfl rfl)) ?_
  rw [exec_printRegister_of_lt _ hr]
  simp

/-- Settles O14: the rule on both sides of the register bound, the first absent operand byte as the fault of the fetch,
and the source's property as a run of two steps. -/
theorem loadImmediateWritesRegister : Obligations.LoadImmediateWritesRegister := by
  unfold Obligations.LoadImmediateWritesRegister
  refine ⟨?_, ?_, ?_⟩
  · intro a imm s
    exact ⟨rfl, rfl, exec_loadImmediate_of_lt imm s, exec_loadImmediate_of_ge imm s⟩
  · intro s hc hRun hPc hOp
    obtain ⟨-, -, -, -, hTable, -⟩ := hc
    have hFault (hBeyond : s.cfg.memCapacity ≤ s.pc + 2) :=
      step_of_operands_beyond_memory (k := .loadImmediate) hTable hRun hPc hOp hBeyond
    constructor
    · intro hFirst
      rw [hFault (by omega), hFirst]
      rfl
    · intro hSecond
      rw [hFault (by omega), hSecond]
      rfl
  · intro s r v hc hRun hr hLoad hPrint
    exact ⟨_, run_loadImmediate_printRegister hc hRun hr hLoad hPrint, rfl, rfl, hRun⟩

end Sys2Proof.Machine

/-! ### PRINT_REGISTER: the family 45_system.md -/

namespace Sys2Proof.Machine

/-- PRINT_REGISTER of an index that names no register. -/
theorem exec_printRegister_of_ge {a : Byte} (s : State) (ha : 8 ≤ a.toNat) :
    exec (.printRegister a) s = .next (raiseFault (.invalidRegister a) s) := by
  rw [exec, execPrintRegister, regOperand, readReg_of_ge ha]
  rfl

/-- Settles O23: the encoding holds by definition; the rule is given on both sides of the register bound. -/
theorem printRegisterEmitsItsValue : Obligations.PrintRegisterEmitsItsValue := by
  unfold Obligations.PrintRegisterEmitsItsValue
  intro a s
  exact ⟨rfl, rfl, exec_printRegister_of_lt s, exec_printRegister_of_ge s⟩

end Sys2Proof.Machine

/-! ### Output and reset: the family 70_reset_and_hazards.md -/

namespace Sys2Proof.Machine

/-! #### What one cycle does to the output stream (R248) -/

/-- How a cycle that is to emit `evs` can end: in a fault taken from the state it began in, or completed, with `evs`
appended to the output and no fault of its own. -/
def CycleEmits (evs : List Event) (s t : State) : Prop :=
  (∃ f, t = raiseFault f s) ∨ (t.out = s.out ++ evs ∧ (t.status = s.status ∨ t.status = .halted))

section

variable {evs : List Event} {s t : State}

theorem CycleEmits.out_of_completed (h : CycleEmits evs s t) (hCompleted : ∀ f, t.status ≠ .faulted f) :
    t.out = s.out ++ evs := by
  rcases h with ⟨f, rfl⟩ | ⟨hOut, -⟩
  · exact absurd (raiseFault_status s f) (hCompleted f)
  · exact hOut

theorem CycleEmits.out_of_faulted {f : Fault} (h : CycleEmits evs s t) (hRun : s.status = .running)
    (hFault : t.status = .faulted f) : t.out = s.out := by
  rcases h with ⟨_, rfl⟩ | ⟨-, hStatus⟩
  · rfl
  · simp [hRun, hFault] at hStatus

theorem CycleEmits.out_prefix (h : CycleEmits evs s t) : s.out <+: t.out := by
  rcases h with ⟨_, rfl⟩ | ⟨hOut, -⟩
  · exact List.prefix_rfl
  · exact ⟨evs, hOut.symm⟩

/-- A rule whose success leaves output and status alone makes a cycle that emits nothing. -/
theorem cycleEmits_nil_of_commit {r : Except Fault State} (h : commit s r = .next t)
    (hRule : r = .ok t → t.out = s.out ∧ t.status = s.status) : CycleEmits [] s t := by
  rcases commit_cases h with hOk | ⟨f, -, rfl⟩
  · obtain ⟨hOut, hStatus⟩ := hRule hOk
    exact .inr ⟨by rw [hOut, List.append_nil], .inl hStatus⟩
  · exact .inl ⟨f, rfl⟩

/-! #### The instructions that emit nothing -/

/-- A register write that succeeds changes the register file and nothing else. -/
theorem exists_regs_of_writeReg {i v : Byte} (h : writeReg s i v = .ok t) : ∃ regs, t = { s with regs := regs } := by
  rcases writeReg_cases s i v with ⟨_, hWrite⟩ | ⟨_, hFault⟩
  · rw [hWrite] at h
    cases h
    exact ⟨_, rfl⟩
  · simp [hFault] at h

theorem branchTo_out_status {a : Byte} (h : branchTo a s = .ok t) : t.out = s.out ∧ t.status = s.status := by
  obtain ⟨target, -, hEnd⟩ := bind_eq_ok_iff.1 h
  cases hEnd
  exact ⟨rfl, rfl⟩

/-- A conditional jump leaves output and status alone, taken or not. -/
theorem branchTo_or_advance_out_status {c : Prop} [Decidable c] {a : Byte}
    (h : (if c then branchTo a s else .ok (s.advance 2)) = .ok t) : t.out = s.out ∧ t.status = s.status := by
  split at h
  · exact branchTo_out_status h
  · cases h
    exact ⟨rfl, rfl⟩

variable {a b : Byte}

theorem execAdd_emits_nil (h : execAdd a b s = .next t) : CycleEmits [] s t := by
  refine cycleEmits_nil_of_commit h fun hRule => ?_
  obtain ⟨⟨va, vb⟩, -, hWrite⟩ := bind_eq_ok_iff.1 hRule
  obtain ⟨u, hu, hEnd⟩ := bind_eq_ok_iff.1 hWrite
  obtain ⟨regs, rfl⟩ := exists_regs_of_writeReg hu
  cases hEnd
  exact ⟨rfl, rfl⟩

theorem execCompare_emits_nil (h : execCompare a b s = .next t) : CycleEmits [] s t := by
  refine cycleEmits_nil_of_commit h fun hRule => ?_
  obtain ⟨⟨va, vb⟩, -, hEnd⟩ := bind_eq_ok_iff.1 hRule
  cases hEnd
  exact ⟨rfl, rfl⟩

theorem execLoadImmediate_emits_nil (h : execLoadImmediate a b s = .next t) : CycleEmits [] s t := by
  refine cycleEmits_nil_of_commit h fun hRule => ?_
  obtain ⟨u, hu, hEnd⟩ := bind_eq_ok_iff.1 hRule
  obtain ⟨regs, rfl⟩ := exists_regs_of_writeReg hu
  cases hEnd
  exact ⟨rfl, rfl⟩

theorem execStore_emits_nil (h : execStore a b s = .next t) : CycleEmits [] s t := by
  refine cycleEmits_nil_of_commit h fun hRule => ?_
  obtain ⟨v, -, hWrite⟩ := bind_eq_ok_iff.1 hRule
  obtain ⟨u, hu, hEnd⟩ := bind_eq_ok_iff.1 hWrite
  obtain ⟨regs, rfl⟩ := exists_regs_of_writeReg hu
  cases hEnd
  exact ⟨rfl, rfl⟩

theorem execPush_emits_nil (h : execPush a s = .next t) : CycleEmits [] s t := by
  refine cycleEmits_nil_of_commit h fun hRule => ?_
  obtain ⟨⟨addr, s₁⟩, hDec, hRead⟩ := bind_eq_ok_iff.1 hRule
  obtain ⟨v, -, hStore⟩ := bind_eq_ok_iff.1 hRead
  obtain ⟨u, hu, hEnd⟩ := bind_eq_ok_iff.1 hStore
  obtain ⟨-, -, -, rfl⟩ := stackDec_ok_iff.1 hDec
  obtain ⟨-, rfl⟩ := memWrite_ok_iff.1 hu
  cases hEnd
  exact ⟨rfl, rfl⟩

theorem execPop_emits_nil (h : execPop a s = .next t) : CycleEmits [] s t := by
  refine cycleEmits_nil_of_commit h fun hRule => ?_
  obtain ⟨addr, -, hRead⟩ := bind_eq_ok_iff.1 hRule
  obtain ⟨v, -, hWrite⟩ := bind_eq_ok_iff.1 hRead
  obtain ⟨u, hu, hEnd⟩ := bind_eq_ok_iff.1 hWrite
  obtain ⟨regs, rfl⟩ := exists_regs_of_writeReg hu
  cases hEnd
  exact ⟨rfl, rfl⟩

theorem execCall_emits_nil (h : execCall a s = .next t) : CycleEmits [] s t := by
  refine cycleEmits_nil_of_commit h fun hRule => ?_
  obtain ⟨⟨addr, s₁⟩, hDec, hStore⟩ := bind_eq_ok_iff.1 hRule
  obtain ⟨u, hu, hRead⟩ := bind_eq_ok_iff.1 hStore
  obtain ⟨target, -, hEnd⟩ := bind_eq_ok_iff.1 hRead
  obtain ⟨-, -, -, rfl⟩ := stackDec_ok_iff.1 hDec
  obtain ⟨-, rfl⟩ := memWrite_ok_iff.1 hu
  cases hEnd
  exact ⟨rfl, rfl⟩

theorem execReturn_emits_nil (h : execReturn s = .next t) : CycleEmits [] s t := by
  refine cycleEmits_nil_of_commit h fun hRule => ?_
  obtain ⟨addr, -, hRead⟩ := bind_eq_ok_iff.1 hRule
  obtain ⟨target, -, hEnd⟩ := bind_eq_ok_iff.1 hRead
  cases hEnd
  exact ⟨rfl, rfl⟩

theorem execJump_emits_nil (h : execJump a s = .next t) : CycleEmits [] s t :=
  cycleEmits_nil_of_commit h branchTo_out_status

theorem execJumpIfEqual_emits_nil (h : execJumpIfEqual a s = .next t) : CycleEmits [] s t :=
  cycleEmits_nil_of_commit h branchTo_or_advance_out_status

theorem execJumpIfNotEqual_emits_nil (h : execJumpIfNotEqual a s = .next t) : CycleEmits [] s t :=
  cycleEmits_nil_of_commit h branchTo_or_advance_out_status

/-- HALT emits nothing; it is the one instruction that completes with another status (R181). -/
theorem execHalt_emits_nil (h : execHalt s = .next t) : CycleEmits [] s t := by
  cases h
  exact .inr ⟨(List.append_nil s.out).symm, .inr rfl⟩

/-! #### The two instructions that emit an event (R35) -/

theorem execMultiply_emits_event (h : execMultiply a b s = .next t) :
    CycleEmits ((Instr.multiply a b).event s).toList s t := by
  rcases regPair_cases s a b with ⟨ha, hb, hPair⟩ | ⟨-, hFault⟩ | ⟨-, -, hFault⟩
  · have hEvent : (Instr.multiply a b).event s = some (.mulResult (s.regs[a.toNat] * s.regs[b.toNat])) := by
      rw [Instr.event, readReg_of_lt ha, readReg_of_lt hb]
    rw [execMultiply, hPair] at h
    cases h
    rw [hEvent]
    exact .inr ⟨rfl, .inl rfl⟩
  · rw [execMultiply, hFault] at h
    cases h
    exact .inl ⟨_, rfl⟩
  · rw [execMultiply, hFault] at h
    cases h
    exact .inl ⟨_, rfl⟩

theorem execPrintRegister_emits_event (h : execPrintRegister a s = .next t) :
    CycleEmits ((Instr.printRegister a).event s).toList s t := by
  rcases readReg_cases s a with ⟨_, hRead⟩ | ⟨-, hFault⟩
  · rw [execPrintRegister, regOperand, hRead] at h
    cases h
    rw [Instr.event, hRead]
    exact .inr ⟨rfl, .inl rfl⟩
  · rw [execPrintRegister, regOperand, hFault] at h
    cases h
    exact .inl ⟨_, rfl⟩

/-! #### Cycles and runs -/

/-- Every instruction's cycle emits that instruction's event, unless it faults (R248). -/
theorem exec_emits_event {i : Instr} (h : exec i s = .next t) : CycleEmits (i.event s).toList s t := by
  cases i with
  | add a b => exact execAdd_emits_nil h
  | multiply a b => exact execMultiply_emits_event h
  | compare a b => exact execCompare_emits_nil h
  | loadImmediate a imm => exact execLoadImmediate_emits_nil h
  | store a b => exact execStore_emits_nil h
  | push a => exact execPush_emits_nil h
  | pop a => exact execPop_emits_nil h
  | call a => exact execCall_emits_nil h
  | ret => exact execReturn_emits_nil h
  | jump a => exact execJump_emits_nil h
  | jumpIfEqual a => exact execJumpIfEqual_emits_nil h
  | jumpIfNotEqual a => exact execJumpIfNotEqual_emits_nil h
  | printRegister a => exact execPrintRegister_emits_event h
  | halt => exact execHalt_emits_nil h

theorem fetchStop_out {e : DecodeError} (h : fetchStop e s = .next t) : t.out = s.out := by
  cases e with
  | truncated n => cases h; rfl
  | unknownOpcode op => cases h; rfl
  | operandMismatch op => cases h

theorem step_out_prefix (h : step s = .next t) : s.out <+: t.out := by
  rcases step_cases h with ⟨-, rfl⟩ | ⟨-, i, -, hExec⟩ | ⟨-, n, -, rfl⟩ | ⟨-, op, -, rfl⟩
  · exact List.prefix_rfl
  · exact (exec_emits_event hExec).out_prefix
  · exact List.prefix_rfl
  · exact List.prefix_rfl

theorem run_out_prefix {k : Nat} (h : Host.Core.run Sys2Proof.core k s = .next t) : s.out <+: t.out :=
  run_induction (P := fun u => s.out <+: u.out) (fun _ _ hPrefix hStep => hPrefix.trans (step_out_prefix hStep))
    List.prefix_rfl h

end

/-- Settles O31: the cycle's law for every instruction gives both ends of a cycle, and the runs follow by the induction
over runs, because every step's output extends the one before it. -/
theorem outputFollowsExecution : Obligations.OutputFollowsExecution := by
  unfold Obligations.OutputFollowsExecution
  refine ⟨?_, ?_, ?_⟩
  · intro s t i hRun hFetch hStep
    have hCycle : CycleEmits (i.event s).toList s t := exec_emits_event ((step_of_fetch hRun hFetch).symm.trans hStep)
    exact ⟨hCycle.out_of_completed, fun _ => hCycle.out_of_faulted hRun⟩
  · intro s t e hRun hStop hStep
    exact fetchStop_out ((step_of_stop hRun hStop).symm.trans hStep)
  · intro k s t hRun
    obtain ⟨evs, hOut⟩ := run_out_prefix hRun
    exact ⟨evs, hOut.symm⟩

/-! #### The reset state (R241, R38) -/

theorem resetOf_sp (c : Config) : (State.resetOf c).sp = c.spInit := by
  simp [State.sp, State.resetOf]

theorem resetOf_regs_of_ne {c : Config} {j : Fin 8} (h : j ≠ c.spIndex) : (State.resetOf c).regs[j] = 0 := by
  have hIndex : c.spIndex.val ≠ j.val := fun e => h (Fin.ext e.symm)
  simp [State.resetOf, Vector.getElem_set_ne, hIndex]

/-- Memory of at most 256 bytes leaves the formula of SP_INIT inside a byte. -/
theorem spInit_toNat {c : Config} (hc : c.Valid) : c.spInit.toNat = c.memCapacity - 1 - c.vectorTableSize := by
  obtain ⟨hNonempty, hBound, -⟩ := hc
  rw [Config.spInit, BitVec.toNat_ofNat]
  omega

/-- Settles O45: each field of `State.resetOf` in turn; reset depends on the configuration alone. -/
theorem resetRestoresEveryValue : Obligations.ResetRestoresEveryValue := by
  unfold Obligations.ResetRestoresEveryValue
  intro s
  refine ⟨Memory.read_nil, fun j => resetOf_regs_of_ne, resetOf_sp s.cfg, spInit_toNat, rfl, rfl, rfl, rfl, ?_⟩
  intro u hCfg
  rw [State.hostReset, hCfg, State.hostReset]

end Sys2Proof.Machine

/-! ### Encoding and decoding -/

namespace Sys2Proof

/-- Settles O1: each word is a closed computation of the decoder with the reference table. -/
theorem decodesWrittenOutWords : Obligations.DecodesWrittenOutWords := by
  unfold Obligations.DecodesWrittenOutWords
  exact ⟨rfl, rfl, rfl, rfl, rfl, rfl, rfl, rfl, rfl, rfl, rfl, rfl, rfl, rfl, rfl, rfl, rfl⟩

/-- Settles O2: the decoder finds the operation by its own byte, bits 7:6 of that byte cut off exactly the operand bytes,
and the operation's constructor puts them back in their order. -/
theorem decodeInvertsEncode : Obligations.DecodeInvertsEncode := by
  unfold Obligations.DecodeInvertsEncode
  intro c i rest hWellFormed
  exact decode_encode_append hWellFormed rest

/-- An instruction is built for the operation it belongs to. -/
theorem operation_of_buildInstr {k : Operation} {bs : List Byte} {i : Instr} (h : buildInstr k bs = some i) :
    i.operation = k := by
  cases k <;> simp only [buildInstr, withNoOperand_eq_some_iff, withOneOperand_eq_some_iff,
    withTwoOperands_eq_some_iff] at h
  case ret | halt => obtain ⟨-, rfl⟩ := h; rfl
  case push | pop | call | jump | jumpIfEqual | jumpIfNotEqual | printRegister => obtain ⟨a, -, rfl⟩ := h; rfl
  case add | multiply | compare | loadImmediate | store => obtain ⟨a, b, -, rfl⟩ := h; rfl

/-- Settles O3: the first byte is the one the lookup found, and what follows it is the operand bytes and the rest. -/
theorem encodeInvertsDecode : Obligations.EncodeInvertsDecode := by
  unfold Obligations.EncodeInvertsDecode
  intro c bytes rest i hDecode
  cases bytes with
  | nil => simp [decode] at hDecode
  | cons op bytes =>
    obtain ⟨k, hLookup, -, -, hBuild, rfl⟩ := decode_cons_ok_iff.1 hDecode
    rw [encode, operation_of_buildInstr hBuild, byteOf_of_lookupOpcode hLookup, operands_of_buildInstr hBuild,
      List.cons_append, List.take_append_drop]

/-- Settles O4: a valid table has two bytes for two operations, and bits 7:6 of each count its operands. -/
theorem validConfigurationEncodesEveryInstruction : Obligations.ValidConfigurationEncodesEveryInstruction := by
  unfold Obligations.ValidConfigurationEncodesEveryInstruction
  intro c hValid i
  exact wellFormed_of_valid hValid i

/-! #### What the decoder rejects -/

/-- The bytes of an operation's operands, in their number, always build an instruction (R94: no operand byte is illegal). -/
theorem exists_buildInstr_of_length {k : Operation} {bs : List Byte} (h : bs.length = k.arity) :
    ∃ i, buildInstr k bs = some i := by
  cases k
  case ret | halt => obtain rfl := List.length_eq_zero_iff.1 h; exact ⟨_, rfl⟩
  case push | pop | call | jump | jumpIfEqual | jumpIfNotEqual | printRegister =>
    obtain ⟨a, rfl⟩ := List.length_eq_one_iff.1 h
    exact ⟨_, rfl⟩
  case add | multiply | compare | loadImmediate | store =>
    obtain ⟨a, b, rfl⟩ := List.length_eq_two.1 h
    exact ⟨_, rfl⟩

/-- What the decoder makes of an opcode of a table whose bits 7:6 count its operands: it is cut off, or it decodes. -/
theorem decode_cons_of_lookup {c : Config} {op : Byte} {bytes : List Byte} {k : Operation}
    (hLookup : lookupOpcode c.opcodes op = some k) (hCount : operandCount op = k.arity) :
    (bytes.length < k.arity ∧ decode c (op :: bytes) = .error (.truncated (bytes.length + 1))) ∨
    ∃ i rest, decode c (op :: bytes) = .ok (i, rest) := by
  rcases Nat.lt_or_ge bytes.length k.arity with hShort | hLong
  · exact .inl ⟨hShort, by simp [decode, hLookup, hCount, hShort]⟩
  · obtain ⟨i, hBuild⟩ := exists_buildInstr_of_length (k := k) (bs := bytes.take (operandCount op))
      (by rw [hCount, List.length_take, Nat.min_eq_left hLong])
    exact .inr ⟨i, _, decode_cons_ok_iff.2 ⟨k, hLookup, hCount, by omega, hBuild, rfl⟩⟩

/-- The decoder refuses an opcode only under a table that breaks R7. -/
theorem decode_ne_operandMismatch {c : Config} (hTable : c.opcodes.Valid) (bytes : List Byte) (op : Byte) :
    decode c bytes ≠ .error (.operandMismatch op) := by
  cases bytes with
  | nil => simp [decode]
  | cons first bytes =>
    cases hLookup : lookupOpcode c.opcodes first with
    | none => simp [decode, hLookup]
    | some k =>
      have hCount : operandCount first = k.arity := by
        rw [← byteOf_of_lookupOpcode hLookup, hTable.2 k (mem_all k)]
      rcases decode_cons_of_lookup (bytes := bytes) hLookup hCount with ⟨-, hCut⟩ | ⟨i, rest, hOk⟩
      · simp [hCut]
      · simp [hOk]

/-- Bytes are cut off only where all of them were looked at, and never after the third (R90). -/
theorem length_of_decode_truncated {c : Config} {bytes : List Byte} {n : Nat}
    (h : decode c bytes = .error (.truncated n)) : bytes.length = n ∧ n < 3 := by
  cases bytes with
  | nil =>
    cases h
    exact ⟨rfl, by omega⟩
  | cons op bytes =>
    cases hLookup : lookupOpcode c.opcodes op with
    | none => simp [decode, hLookup] at h
    | some k =>
      by_cases hCount : operandCount op = k.arity
      · rcases decode_cons_of_lookup (bytes := bytes) hLookup hCount with ⟨hShort, hCut⟩ | ⟨i, rest, hOk⟩
        · have hArity := arity_le_two k
          rw [hCut] at h
          cases h
          exact ⟨rfl, by omega⟩
        · simp [hOk] at h
      · simp [decode, hLookup, hCount] at h

/-- The decoder rejects as unknown only the byte it begins with, when the table does not have it (R99). -/
theorem decode_unknownOpcode_iff {c : Config} {bytes : List Byte} {op : Byte} :
    decode c bytes = .error (.unknownOpcode op) ↔
      bytes.head? = some op ∧ ∀ k ∈ Operation.all, c.opcodes.byteOf k ≠ op := by
  cases bytes with
  | nil => simp [decode]
  | cons first bytes =>
    cases hLookup : lookupOpcode c.opcodes first with
    | none =>
      have hNone := lookupOpcode_eq_none_iff.1 hLookup
      simp only [decode, hLookup, Except.error.injEq, DecodeError.unknownOpcode.injEq, List.head?_cons, Option.some.injEq]
      exact ⟨fun hEq => ⟨hEq, hEq ▸ hNone⟩, fun hEq => hEq.1⟩
    | some k =>
      have hFound := byteOf_of_lookupOpcode hLookup
      refine ⟨fun h => ?_, fun ⟨hHead, hNone⟩ => ?_⟩
      · by_cases hCount : operandCount first = k.arity
        · rcases decode_cons_of_lookup (bytes := bytes) hLookup hCount with ⟨-, hCut⟩ | ⟨i, rest, hOk⟩
          · simp [hCut] at h
          · simp [hOk] at h
        · simp [decode, hLookup, hCount] at h
      · cases hHead
        exact absurd hFound (hNone k (mem_all k))

end Sys2Proof

/-! ### Memory, registers and load -/

namespace Sys2Proof.Machine

/-! #### The canonical form determines memory (log 23) -/

namespace Memory

/-- A canonical memory without its first entry is canonical, and lists only greater addresses. -/
theorem wf_cons_iff {k : Nat} {v : Byte} {m : Memory} :
    Memory.wf ((k, v) :: m) ↔ v ≠ Memory.unlisted ∧ (∀ p ∈ m, k < p.1) ∧ m.wf := by
  simp only [Memory.wf, List.pairwise_cons, List.forall_mem_cons]
  tauto

theorem read_cons_same (k : Nat) (v : Byte) (m : Memory) : Memory.read ((k, v) :: m) k = v := if_pos rfl

theorem read_cons_ne {k a : Nat} (v : Byte) (m : Memory) (h : a ≠ k) : Memory.read ((k, v) :: m) a = m.read a :=
  if_neg h

/-- The first listed address of a canonical memory is listed by no memory whose addresses are all greater. -/
theorem read_ne_of_first_lt {k : Nat} {v : Byte} {m n : Memory} (hv : v ≠ Memory.unlisted) (hn : ∀ p ∈ n, k < p.1) :
    Memory.read ((k, v) :: m) k ≠ n.read k := by
  rwa [read_cons_same, read_of_lt_all hn]

/-- Memories that read alike with a first entry at the same address hold the same byte there and read alike behind it. -/
theorem tails_read_alike {k : Nat} {v w : Byte} {m n : Memory} (hm : ∀ p ∈ m, k < p.1) (hn : ∀ p ∈ n, k < p.1)
    (hRead : ∀ a, Memory.read ((k, v) :: m) a = Memory.read ((k, w) :: n) a) : v = w ∧ ∀ a, m.read a = n.read a := by
  refine ⟨by simpa only [read_cons_same] using hRead k, fun a => ?_⟩
  by_cases hEq : a = k
  · rw [hEq, read_of_lt_all hm, read_of_lt_all hn]
  · simpa only [read_cons_ne _ _ hEq] using hRead a

theorem eq_of_read_eq {m n : Memory} (hm : m.wf) (hn : n.wf) (hRead : ∀ a, m.read a = n.read a) : m = n := by
  induction m generalizing n with
  | nil =>
    cases n with
    | nil => rfl
    | cons q n =>
      obtain ⟨hq, -, -⟩ := wf_cons_iff.1 hn
      exact absurd (hRead q.1).symm (read_ne_of_first_lt hq (by simp))
  | cons p m ih =>
    obtain ⟨k, v⟩ := p
    obtain ⟨hv, hmFirst, hmRest⟩ := wf_cons_iff.1 hm
    cases n with
    | nil => exact absurd (hRead k) (read_ne_of_first_lt hv (by simp))
    | cons q n =>
      obtain ⟨l, w⟩ := q
      obtain ⟨hw, hnFirst, hnRest⟩ := wf_cons_iff.1 hn
      rcases Nat.lt_trichotomy k l with hLess | rfl | hGreater
      · refine absurd (hRead k) (read_ne_of_first_lt hv (List.forall_mem_cons.2 ⟨hLess, fun r hr => ?_⟩))
        exact Nat.lt_trans hLess (hnFirst r hr)
      · obtain ⟨rfl, hTails⟩ := tails_read_alike hmFirst hnFirst hRead
        rw [ih hmRest hnRest hTails]
      · refine absurd (hRead l).symm (read_ne_of_first_lt hw (List.forall_mem_cons.2 ⟨hGreater, fun r hr => ?_⟩))
        exact Nat.lt_trans hGreater (hmFirst r hr)

end Memory

/-- Settles O9, by induction on the two lists: the smaller of two different first addresses is listed in one memory and
not in the other. -/
theorem canonicalMemoryIsDetermined : Obligations.CanonicalMemoryIsDetermined := by
  unfold Obligations.CanonicalMemoryIsDetermined
  intro m n hm hn hRead
  exact Memory.eq_of_read_eq hm hn hRead

/-- Settles O8: the two inversion laws of `memWrite`, with what a read gives after a write. -/
theorem memWriteReplacesOneCell : Obligations.MemWriteReplacesOneCell := by
  unfold Obligations.MemWriteReplacesOneCell
  intro s addr v hCanonical
  constructor
  · intro hInside
    exact ⟨_, memWrite_ok_iff.2 ⟨hInside, rfl⟩, Memory.read_write_same hCanonical addr v,
      fun b hb => Memory.read_write_ne s.mem v hb, rfl, Memory.write_wf hCanonical addr v⟩
  · intro hOutside
    exact memWrite_error_iff.2 ⟨hOutside, rfl⟩

/-- Settles O10: both accesses on both sides of the bound; `SP` is the register at SP_INDEX, so a write moves it exactly
when it is a write of that register. -/
theorem registerAccessIsChecked : Obligations.RegisterAccessIsChecked := by
  unfold Obligations.RegisterAccessIsChecked
  intro s i v
  refine ⟨fun hOutside => ⟨readReg_of_ge hOutside, writeReg_of_ge hOutside⟩, fun hInside => ?_⟩
  refine ⟨_, writeReg_of_lt hInside, ?_, ?_, rfl, ?_, ?_⟩
  · rw [readReg_of_lt hInside, Vector.getElem_set_self]
  · intro j hj hOther
    have hIndex : i.toNat ≠ j.toNat := fun h => hOther (BitVec.eq_of_toNat_eq h.symm)
    rw [readReg_of_lt hj, readReg_of_lt hj, Vector.getElem_set_ne _ _ hIndex]
  · intro hSp
    refine ⟨?_, ?_, ?_⟩
    · simp [readReg_of_lt hInside, State.sp, hSp]
    · simp [State.sp, hSp]
    · simp [State.setSp, hSp]
  · intro hSp
    exact Vector.getElem_set_ne hInside _ hSp

/-! #### Load (R242) -/

/-- What placed bytes that fit into memory read as: from `addr` on the bytes, and beyond them what was there. -/
theorem placeBytes_read {s : State} (hs : s.mem.wf) {addr : Nat} {bs : List Byte}
    (hFit : addr + bs.length ≤ s.cfg.memCapacity) (k : Nat) :
    (placeBytes s addr bs).mem.read (addr + k) = bs.getD k (s.mem.read (addr + k)) := by
  induction bs generalizing s addr k with
  | nil => rfl
  | cons v vs ih =>
    rw [List.length_cons] at hFit
    have hWrite : memWrite s addr v = .ok { s with mem := s.mem.write addr v } := memWrite_ok_iff.2 ⟨by omega, rfl⟩
    rw [placeBytes, hWrite]
    cases k with
    | zero => exact (placeBytes_read_below _ vs (by omega)).trans (Memory.read_write_same hs addr v)
    | succ k =>
      have hRest := ih (s := { s with mem := s.mem.write addr v }) (Memory.write_wf hs addr v) (addr := addr + 1)
        (by dsimp only; omega) k
      rw [Memory.read_write_ne _ _ (by omega)] at hRest
      rwa [Nat.add_right_comm, Nat.add_assoc] at hRest

theorem boot_eq_some_iff {c : Config} {image : List Byte} {s : State} :
    State.boot c image = some s ↔ image.length ≤ c.memCapacity ∧ s = placeBytes (State.resetOf c) 0 image := by
  unfold State.boot
  split <;> simp_all [eq_comm]

/-- Settles O46: load places the bytes in the memory of the reset state, which reads 0 everywhere. -/
theorem bootLoadsImageAtZero : Obligations.BootLoadsImageAtZero := by
  unfold Obligations.BootLoadsImageAtZero
  intro c image
  constructor
  · intro hLonger
    exact if_neg (Nat.not_le.2 hLonger)
  · intro hFit
    refine ⟨_, boot_eq_some_iff.2 ⟨hFit, rfl⟩, placeBytes_eq _ _ _, placeBytes_wf (Memory.resetOf_wf c) _ _, fun addr => ?_⟩
    have hRead := placeBytes_read (Memory.resetOf_wf c) (addr := 0) (by simpa [State.resetOf] using hFit) addr
    rwa [Nat.zero_add] at hRead

end Sys2Proof.Machine

/-! ### What an instruction can do: its checks in their order, and one effect behind them -/

namespace Sys2Proof.Machine

/-! #### A check and the value behind it -/

/-- The result of a rule that gives a value after its checks; the option is the fault of the first check that fails. -/
def checked {α : Type} : Option Fault → α → Except Fault α
  | none, a => .ok a
  | some f, _ => .error f

@[simp] theorem checked_none {α : Type} (a : α) : checked none a = .ok a := rfl
@[simp] theorem checked_some {α : Type} (f : Fault) (a : α) : checked (some f) a = .error f := rfl

/-- The check of a register access (R22). -/
def registerFault (a : Byte) : Option Fault := if a.toNat < 8 then none else some (.invalidRegister a)

/-- The check of a memory access (R62, R63). -/
def cellFault (s : State) (addr : Nat) : Option Fault :=
  if addr < s.cfg.memCapacity then none else some (.outOfBounds addr)

/-- The tests of the push primitive (R151). -/
def pushFault (s : State) : Option Fault := if s.PushOverflows then some (.stackOverflow s.sp) else none

/-- The test of the pop primitive (R152). -/
def popFault (s : State) : Option Fault := if s.PopUnderflows then some (.stackUnderflow s.sp) else none

theorem registerFault_of_lt {a : Byte} (h : a.toNat < 8) : registerFault a = none := if_pos h
theorem registerFault_of_ge {a : Byte} (h : 8 ≤ a.toNat) : registerFault a = some (.invalidRegister a) :=
  if_neg (Nat.not_lt.2 h)

theorem cellFault_of_lt {s : State} {addr : Nat} (h : addr < s.cfg.memCapacity) : cellFault s addr = none := if_pos h
theorem cellFault_of_ge {s : State} {addr : Nat} (h : s.cfg.memCapacity ≤ addr) :
    cellFault s addr = some (.outOfBounds addr) := if_neg (Nat.not_lt.2 h)

theorem pushFault_of_overflows {s : State} (h : s.PushOverflows) : pushFault s = some (.stackOverflow s.sp) := if_pos h
theorem pushFault_of_not {s : State} (h : ¬ s.PushOverflows) : pushFault s = none := if_neg h

theorem popFault_of_underflows {s : State} (h : s.PopUnderflows) : popFault s = some (.stackUnderflow s.sp) := if_pos h
theorem popFault_of_not {s : State} (h : ¬ s.PopUnderflows) : popFault s = none := if_neg h

theorem registerFault_eq_none_iff {a : Byte} : registerFault a = none ↔ a.toNat < 8 := by simp [registerFault]
theorem registerFault_eq_some_iff {a : Byte} {f : Fault} :
    registerFault a = some f ↔ 8 ≤ a.toNat ∧ f = .invalidRegister a := by simp [registerFault, eq_comm]

theorem cellFault_eq_none_iff {s : State} {addr : Nat} : cellFault s addr = none ↔ addr < s.cfg.memCapacity := by
  simp [cellFault]
theorem cellFault_eq_some_iff {s : State} {addr : Nat} {f : Fault} :
    cellFault s addr = some f ↔ s.cfg.memCapacity ≤ addr ∧ f = .outOfBounds addr := by simp [cellFault, eq_comm]

theorem pushFault_eq_none_iff {s : State} : pushFault s = none ↔ ¬ s.PushOverflows := by simp [pushFault]
theorem pushFault_eq_some_iff {s : State} {f : Fault} :
    pushFault s = some f ↔ s.PushOverflows ∧ f = .stackOverflow s.sp := by simp only [pushFault, eq_comm]; simp

theorem popFault_eq_none_iff {s : State} : popFault s = none ↔ ¬ s.PopUnderflows := by simp [popFault]
theorem popFault_eq_some_iff {s : State} {f : Fault} :
    popFault s = some f ↔ s.PopUnderflows ∧ f = .stackUnderflow s.sp := by simp [popFault, eq_comm]

/-! #### The changes of state behind the checks -/

/-- The byte of the register an operand names; what it is for an index that names none does not matter. -/
def State.reg (s : State) (a : Byte) : Byte := s.regs[a.toNat]?.getD 0

/-- The state with the register an operand names replaced; unchanged for an index that names none. -/
def State.setReg (s : State) (a v : Byte) : State := { s with regs := s.regs.setIfInBounds a.toNat v }

/-- The state with one cell replaced. -/
def State.setCell (s : State) (addr : Nat) (v : Byte) : State := { s with mem := s.mem.write addr v }

/-- `SP` down by one and a byte stored there (R151). -/
def State.pushByte (s : State) (v : Byte) : State := (s.setSp (s.sp - 1)).setCell (s.sp.toNat - 1) v

/-- FL after COMPARE of two bytes, and `pc` behind the instruction (R123). -/
def State.compared (s : State) (va vb : Byte) : State := (s.setFl (compareFlags s.cfg s.fl va vb)).advance 3

theorem State.reg_of_lt {s : State} {a : Byte} (h : a.toNat < 8) : s.reg a = s.regs[a.toNat] := by simp [State.reg, h]

theorem State.setReg_of_lt {s : State} {a : Byte} (v : Byte) (h : a.toNat < 8) :
    s.setReg a v = { s with regs := s.regs.set a.toNat v } := by
  simp [State.setReg, Vector.setIfInBounds, Vector.set, Array.setIfInBounds, h]

@[simp] theorem State.pushByte_mem (s : State) (v : Byte) :
    (s.pushByte v).mem = s.mem.write (s.sp.toNat - 1) v := rfl
@[simp] theorem State.pushByte_sp (s : State) (v : Byte) : (s.pushByte v).sp = s.sp - 1 := State.setSp_sp s (s.sp - 1)

/-! #### The model's primitives in this form -/

theorem readReg_eq_checked (s : State) (a : Byte) : readReg s a = checked (registerFault a) (s.reg a) := by
  rcases readReg_cases s a with ⟨ha, hRead⟩ | ⟨ha, hFault⟩
  · rw [hRead, registerFault_of_lt ha, State.reg_of_lt ha, checked_none]
  · rw [hFault, registerFault_of_ge ha, checked_some]

theorem writeReg_eq_checked (s : State) (a v : Byte) : writeReg s a v = checked (registerFault a) (s.setReg a v) := by
  rcases writeReg_cases s a v with ⟨ha, hWrite⟩ | ⟨ha, hFault⟩
  · rw [hWrite, registerFault_of_lt ha, State.setReg_of_lt v ha, checked_none]
  · rw [hFault, registerFault_of_ge ha, checked_some]

theorem memWrite_eq_checked (s : State) (addr : Nat) (v : Byte) :
    memWrite s addr v = checked (cellFault s addr) (s.setCell addr v) := by
  rcases Nat.lt_or_ge addr s.cfg.memCapacity with h | h
  · rw [cellFault_of_lt h, checked_none]
    exact memWrite_ok_iff.2 ⟨h, rfl⟩
  · rw [cellFault_of_ge h, checked_some]
    exact memWrite_error_iff.2 ⟨h, rfl⟩

theorem pushOverflows_iff {s : State} : s.PushOverflows ↔ s.sp.toNat ≤ s.cfg.stackLimit ∨ s.sp.toNat = s.pc + 1 := by
  unfold State.PushOverflows
  omega

theorem stackDec_eq_checked (s : State) :
    stackDec s = checked (pushFault s) (s.sp.toNat - 1, s.setSp (s.sp - 1)) := by
  by_cases h : s.PushOverflows
  · rw [pushFault_of_overflows h, checked_some]
    exact stackDec_error_iff.2 ⟨pushOverflows_iff.1 h, rfl⟩
  · rw [pushFault_of_not h, checked_none]
    rw [pushOverflows_iff] at h
    exact stackDec_ok_iff.2 ⟨by omega, by omega, rfl, rfl⟩

theorem stackTop_eq_checked (s : State) : stackTop s = checked (popFault s) s.sp.toNat := by
  by_cases h : s.PopUnderflows
  · rw [popFault_of_underflows h, checked_some]
    exact stackTop_error_iff.2 ⟨h, rfl⟩
  · rw [popFault_of_not h, checked_none]
    exact stackTop_ok_iff.2 ⟨Nat.not_le.1 h, rfl⟩

/-- Where the pop primitive finds no underflow, the cell it reads exists. -/
theorem memRead_sp_of_popFault {s : State} (h : popFault s = none) :
    memRead s s.sp.toNat = .ok (s.mem.read s.sp.toNat) := by
  have hInside := popFault_eq_none_iff.1 h
  exact memRead_ok_iff.2 ⟨by omega, rfl⟩

/-! #### The fourteen instructions in this form -/

/-- The fault an instruction raises: that of the first check that fails, in the order of its rule (D14). -/
def firstFault (i : Instr) (s : State) : Option Fault :=
  match i with
  | .add a b => (registerFault a).or (registerFault b)
  | .multiply a b => (registerFault a).or (registerFault b)
  | .compare a b => (registerFault a).or (registerFault b)
  | .loadImmediate a _ => registerFault a
  | .store a b => (registerFault a).or (registerFault b)
  | .push a => (pushFault s).or ((registerFault a).or (cellFault s (s.sp.toNat - 1)))
  | .pop a => (popFault s).or (registerFault a)
  | .call a => (pushFault s).or ((cellFault s (s.sp.toNat - 1)).or (registerFault a))
  | .ret => popFault s
  | .jump a => registerFault a
  | .jumpIfEqual a => if s.flagE = true then registerFault a else none
  | .jumpIfNotEqual a => if s.flagE = false then registerFault a else none
  | .printRegister a => registerFault a
  | .halt => none

/-- The state an instruction makes when no check fails. -/
def effect (i : Instr) (s : State) : State :=
  match i with
  | .add a b => (s.setReg a (s.reg a + s.reg b)).advance 3
  | .multiply a b => (s.emit (.mulResult (s.reg a * s.reg b))).advance 3
  | .compare a b => s.compared (s.reg a) (s.reg b)
  | .loadImmediate a imm => (s.setReg a imm).advance 3
  | .store a b => (s.setReg b (s.reg a)).advance 3
  | .push a => (s.pushByte ((s.setSp (s.sp - 1)).reg a)).advance 2
  | .pop a =>
    let loaded := s.setReg a (s.mem.read s.sp.toNat)
    (loaded.setSp (loaded.sp + 1)).advance 2
  | .call a => (s.pushByte (BitVec.ofNat 8 (s.pc + 2))).jumpTo ((s.setSp (s.sp - 1)).reg a)
  | .ret => (s.setSp (s.sp + 1)).jumpTo (s.mem.read s.sp.toNat)
  | .jump a => s.jumpTo (s.reg a)
  | .jumpIfEqual a => if s.flagE = true then s.jumpTo (s.reg a) else s.advance 2
  | .jumpIfNotEqual a => if s.flagE = false then s.jumpTo (s.reg a) else s.advance 2
  | .printRegister a => (s.emit (.observe (s.reg a))).advance 2
  | .halt => s.halt

theorem regPair_eq_checked (s : State) (a b : Byte) :
    regPair s a b = checked ((registerFault a).or (registerFault b)) (s.reg a, s.reg b) := by
  simp only [regPair, regOperand, readReg_eq_checked]
  cases registerFault a <;> cases registerFault b <;> rfl

theorem branchTo_eq_checked (a : Byte) (s : State) :
    branchTo a s = checked (registerFault a) (s.jumpTo (s.reg a)) := by
  simp only [branchTo, regOperand, readReg_eq_checked]
  cases registerFault a <;> rfl

/-- Every instruction makes its checks, takes the fault of the first that fails, and otherwise has its one effect. -/
theorem exec_eq_checked (i : Instr) (s : State) : exec i s = commit s (checked (firstFault i s) (effect i s)) := by
  cases i with
  | add a b =>
    simp only [exec, execAdd, firstFault, effect, regPair_eq_checked, writeReg_eq_checked]
    cases registerFault a <;> cases registerFault b <;> rfl
  | multiply a b =>
    simp only [exec, execMultiply, firstFault, effect, regPair_eq_checked]
    cases (registerFault a).or (registerFault b) <;> rfl
  | compare a b =>
    simp only [exec, execCompare, firstFault, effect, regPair_eq_checked]
    cases (registerFault a).or (registerFault b) <;> rfl
  | loadImmediate a imm =>
    simp only [exec, execLoadImmediate, firstFault, effect, writeReg_eq_checked]
    cases registerFault a <;> rfl
  | store a b =>
    simp only [exec, execStore, regOperand, firstFault, effect, readReg_eq_checked, writeReg_eq_checked]
    cases registerFault a <;> cases registerFault b <;> rfl
  | push a =>
    simp only [exec, execPush, regOperand, firstFault, effect, stackDec_eq_checked, readReg_eq_checked,
      memWrite_eq_checked]
    cases pushFault s with
    | some f => rfl
    | none => cases registerFault a with
      | some f => rfl
      | none =>
        show commit s (checked (cellFault s _) _ >>= _) = commit s (checked (cellFault s _) _)
        cases cellFault s (s.sp.toNat - 1) <;> rfl
  | pop a =>
    simp only [exec, execPop, firstFault, effect, stackTop_eq_checked, writeReg_eq_checked]
    cases hPop : popFault s with
    | some f => rfl
    | none =>
      simp only [checked_none, ok_bind, memRead_sp_of_popFault hPop]
      cases registerFault a <;> rfl
  | call a =>
    simp only [exec, execCall, regOperand, firstFault, effect, stackDec_eq_checked, readReg_eq_checked,
      memWrite_eq_checked]
    cases pushFault s with
    | some f => rfl
    | none =>
      show commit s (checked (cellFault s _) _ >>= _) = commit s (checked ((cellFault s _).or _) _)
      cases cellFault s (s.sp.toNat - 1) <;> cases registerFault a <;> rfl
  | ret =>
    simp only [exec, execReturn, firstFault, effect, stackTop_eq_checked]
    cases hPop : popFault s with
    | some f => rfl
    | none => simp only [checked_none, ok_bind, memRead_sp_of_popFault hPop, pure_eq_ok]
  | jump a => rw [exec, execJump, branchTo_eq_checked]; rfl
  | jumpIfEqual a =>
    simp only [exec, execJumpIfEqual, firstFault, effect, branchTo_eq_checked]
    split <;> rfl
  | jumpIfNotEqual a =>
    simp only [exec, execJumpIfNotEqual, firstFault, effect, branchTo_eq_checked]
    split <;> rfl
  | printRegister a =>
    simp only [exec, execPrintRegister, regOperand, firstFault, effect, readReg_eq_checked]
    cases registerFault a <;> rfl
  | halt => rfl

theorem exec_of_noFault {i : Instr} {s : State} (h : firstFault i s = none) : exec i s = .next (effect i s) := by
  rw [exec_eq_checked, h, checked_none, commit_ok]

theorem exec_of_fault {i : Instr} {s : State} {f : Fault} (h : firstFault i s = some f) :
    exec i s = .next (raiseFault f s) := by
  rw [exec_eq_checked, h, checked_some, commit_error]

/-- All that an instruction can do: what it answers is its effect, when no check fails, or the fault of the first check
that does. -/
theorem exec_cases {i : Instr} {s t : State} (h : exec i s = .next t) :
    (firstFault i s = none ∧ t = effect i s) ∨ ∃ f, firstFault i s = some f ∧ t = raiseFault f s := by
  cases hFault : firstFault i s with
  | none =>
    rw [exec_of_noFault hFault] at h
    cases h
    exact .inl ⟨rfl, rfl⟩
  | some f =>
    rw [exec_of_fault hFault] at h
    cases h
    exact .inr ⟨f, rfl, rfl⟩

theorem exists_exec_next (i : Instr) (s : State) : ∃ t, exec i s = .next t := by
  rw [exec_eq_checked]
  exact commit_next _ _

end Sys2Proof.Machine

/-! ### The instructions' results -/

namespace Sys2Proof.Machine

/-- The faults of an instruction whose checks are those of two register operands (R120, D14). -/
theorem exec_of_ge_first {i : Instr} {a b : Byte} {s : State}
    (hChecks : firstFault i s = (registerFault a).or (registerFault b)) (ha : 8 ≤ a.toNat) :
    exec i s = .next (raiseFault (.invalidRegister a) s) :=
  exec_of_fault (by rw [hChecks, registerFault_of_ge ha, Option.some_or])

theorem exec_of_ge_second {i : Instr} {a b : Byte} {s : State}
    (hChecks : firstFault i s = (registerFault a).or (registerFault b)) (ha : a.toNat < 8) (hb : 8 ≤ b.toNat) :
    exec i s = .next (raiseFault (.invalidRegister b) s) :=
  exec_of_fault (by rw [hChecks, registerFault_of_lt ha, registerFault_of_ge hb, Option.none_or])

theorem exec_of_lt_lt {i : Instr} {a b : Byte} {s : State}
    (hChecks : firstFault i s = (registerFault a).or (registerFault b)) (ha : a.toNat < 8) (hb : b.toNat < 8) :
    exec i s = .next (effect i s) :=
  exec_of_noFault (by rw [hChecks, registerFault_of_lt ha, registerFault_of_lt hb, Option.none_or])

theorem ofNat_sum_mod (x y : Byte) : BitVec.ofNat 8 ((x.toNat + y.toNat) % 256) = x + y :=
  BitVec.eq_of_toNat_eq (by simp)

theorem ofNat_product_mod (x y : Byte) : BitVec.ofNat 8 ((x.toNat * y.toNat) % 256) = x * y :=
  BitVec.eq_of_toNat_eq (by simp)

/-- Settles O11: the checks of two register operands, and the byte sum as the sum mod 256. -/
theorem addWrapsIntoFirstRegister : Obligations.AddWrapsIntoFirstRegister := by
  unfold Obligations.AddWrapsIntoFirstRegister
  intro a b s
  refine ⟨rfl, fun ha hb => ?_, exec_of_ge_first (b := b) rfl, exec_of_ge_second rfl⟩
  rw [exec_of_lt_lt rfl ha hb, effect, State.reg_of_lt ha, State.reg_of_lt hb, State.setReg_of_lt _ ha, ofNat_sum_mod]
  rfl

/-- Settles O12: the checks of two register operands, and the byte product as the product mod 256. -/
theorem multiplyEmitsProduct : Obligations.MultiplyEmitsProduct := by
  unfold Obligations.MultiplyEmitsProduct
  intro a b s
  refine ⟨rfl, fun ha hb => ?_, exec_of_ge_first (b := b) rfl, exec_of_ge_second rfl⟩
  rw [exec_of_lt_lt rfl ha hb, effect, State.reg_of_lt ha, State.reg_of_lt hb, ofNat_product_mod]
  rfl

/-- Settles O15: the checks of two register operands, and one register write. -/
theorem storeCopiesFirstToSecond : Obligations.StoreCopiesFirstToSecond := by
  unfold Obligations.StoreCopiesFirstToSecond
  intro a b s
  refine ⟨rfl, fun ha hb => ?_, exec_of_ge_first (b := b) rfl, exec_of_ge_second rfl⟩
  rw [exec_of_lt_lt rfl ha hb, effect, State.reg_of_lt ha, State.setReg_of_lt _ hb]
  rfl

/-! #### COMPARE (R123) -/

section

variable {s : State} (hc : s.cfg.Valid) (va vb : Byte)
include hc

/-- The bit E after COMPARE; the other two conditions follow, each with its own comparison. -/
theorem compared_flagE_iff :
    (s.compared va vb).flagE = true ↔ va = vb ∨ (s.cfg.flagsSticky = true ∧ s.flagE = true) := by
  obtain ⟨-, -, -, -, -, hEG, hEL, -⟩ := hc
  simp [State.compared, State.flagE, flagBit_compareFlags, flagBit_clearConditions, hEG, hEL, and_comm, or_comm]

theorem compared_flagG_iff :
    (s.compared va vb).flagG = true ↔ vb.toNat < va.toNat ∨ (s.cfg.flagsSticky = true ∧ s.flagG = true) := by
  obtain ⟨-, -, -, -, -, hEG, -, hGL⟩ := hc
  simp [State.compared, State.flagG, flagBit_compareFlags, flagBit_clearConditions, hEG.symm, hGL, and_comm, or_comm]

theorem compared_flagL_iff :
    (s.compared va vb).flagL = true ↔ va.toNat < vb.toNat ∨ (s.cfg.flagsSticky = true ∧ s.flagL = true) := by
  obtain ⟨-, -, -, -, -, -, hEL, hGL⟩ := hc
  simp [State.compared, State.flagL, flagBit_compareFlags, flagBit_clearConditions, hEL.symm, hGL.symm, and_comm,
    or_comm]

end

theorem compared_flagBit_other {s : State} {p : Fin 8} (va vb : Byte) (hE : p ≠ s.cfg.flE) (hG : p ≠ s.cfg.flG)
    (hL : p ≠ s.cfg.flL) : flagBit (s.compared va vb).fl p = flagBit s.fl p := by
  simp [State.compared, flagBit_compareFlags, flagBit_clearConditions, hE, hG, hL]

/-- COMPARE of two registers that exist. -/
theorem exec_compare_of_lt {a b : Byte} (s : State) (ha : a.toNat < 8) (hb : b.toNat < 8) :
    exec (.compare a b) s = .next (s.compared s.regs[a.toNat] s.regs[b.toNat]) := by
  rw [exec_of_lt_lt rfl ha hb, effect, State.reg_of_lt ha, State.reg_of_lt hb]

/-- Settles O13: the bits of COMPARE's FL one by one; a valid configuration keeps the three positions apart. -/
theorem compareSetsOneCondition : Obligations.CompareSetsOneCondition := by
  unfold Obligations.CompareSetsOneCondition
  intro a b s hc
  refine ⟨rfl, fun ha hb => ?_, exec_of_ge_first (b := b) rfl, exec_of_ge_second rfl⟩
  refine ⟨_, exec_compare_of_lt s ha hb, rfl, ?_, compared_flagG_iff hc _ _, compared_flagL_iff hc _ _,
    fun p => compared_flagBit_other _ _⟩
  rw [← BitVec.toNat_eq]
  exact compared_flagE_iff hc _ _

/-! #### The stack (R151 to R154) and the subroutines (R160, R161) -/

theorem State.setSp_reg {s : State} {a : Byte} (v : Byte) (ha : a.toNat < 8) :
    (s.setSp v).reg a = if a.toNat = s.cfg.spIndex.val then v else s.regs[a.toNat] := by
  rw [State.reg_of_lt ha]
  simp [Vector.getElem_set, eq_comm]

/-- Above the stack limit the decremented pointer does not wrap. -/
theorem sp_sub_one_toNat {s : State} (h : ¬ s.PushOverflows) : (s.sp - 1).toNat = s.sp.toNat - 1 := by
  rw [pushOverflows_iff] at h
  have hByte := s.sp.isLt
  bv_omega

theorem ofNat_sp_sub_one {s : State} (h : ¬ s.PushOverflows) : BitVec.ofNat 8 (s.sp.toNat - 1) = s.sp - 1 := by
  rw [← sp_sub_one_toNat h, BitVec.ofNat_toNat, BitVec.setWidth_eq]

theorem ofNat_add_one (x : Byte) : BitVec.ofNat 8 (x.toNat + 1) = x + 1 := BitVec.eq_of_toNat_eq (by simp)

theorem ofNat_mod (n : Nat) : BitVec.ofNat 8 (n % 256) = BitVec.ofNat 8 n := BitVec.eq_of_toNat_eq (by simp)

theorem exec_of_pushOverflows {i : Instr} {s : State} {later : Option Fault}
    (hChecks : firstFault i s = (pushFault s).or later) (h : s.PushOverflows) :
    exec i s = .next (raiseFault (.stackOverflow s.sp) s) :=
  exec_of_fault (by rw [hChecks, pushFault_of_overflows h, Option.some_or])

theorem exec_of_popUnderflows {i : Instr} {s : State} {later : Option Fault}
    (hChecks : firstFault i s = (popFault s).or later) (h : s.PopUnderflows) :
    exec i s = .next (raiseFault (.stackUnderflow s.sp) s) :=
  exec_of_fault (by rw [hChecks, popFault_of_underflows h, Option.some_or])

/-- PUSH of a register that exists to a cell that exists. -/
theorem exec_push_of_lt {a : Byte} {s : State} (ha : a.toNat < 8) (hStack : ¬ s.PushOverflows)
    (hCell : s.sp.toNat - 1 < s.cfg.memCapacity) :
    exec (.push a) s = .next { s with
      regs := s.regs.set s.cfg.spIndex (s.sp - 1)
      mem := s.mem.write (s.sp.toNat - 1) (if a.toNat = s.cfg.spIndex.val then s.sp - 1 else s.regs[a.toNat])
      pc := s.pc + 2 } := by
  have hChecks : firstFault (.push a) s = none := by
    rw [firstFault, pushFault_of_not hStack, registerFault_of_lt ha, cellFault_of_lt hCell]
    rfl
  rw [exec_of_noFault hChecks, effect, State.setSp_reg _ ha]
  rfl

/-- Settles O16: one clause for each check in its order; behind the stack test the decremented pointer does not wrap. -/
theorem pushStoresBelowStackPointer : Obligations.PushStoresBelowStackPointer := by
  unfold Obligations.PushStoresBelowStackPointer
  intro a s
  refine ⟨rfl, fun ha hStack hCell => ?_, exec_of_pushOverflows rfl, fun hStack ha => ?_, fun hStack ha hCell => ?_⟩
  · rw [exec_push_of_lt ha hStack hCell, ofNat_sp_sub_one hStack]
  · exact exec_of_fault (by rw [firstFault, pushFault_of_not hStack, registerFault_of_ge ha]; rfl)
  · exact exec_of_fault (by
      rw [firstFault, pushFault_of_not hStack, registerFault_of_lt ha, cellFault_of_ge hCell]; rfl)

/-- CALL through a register that exists with a stack cell that exists. -/
theorem exec_call_of_lt {a : Byte} {s : State} (ha : a.toNat < 8) (hStack : ¬ s.PushOverflows)
    (hCell : s.sp.toNat - 1 < s.cfg.memCapacity) :
    exec (.call a) s = .next { s with
      regs := s.regs.set s.cfg.spIndex (s.sp - 1)
      mem := s.mem.write (s.sp.toNat - 1) (BitVec.ofNat 8 (s.pc + 2))
      pc := (if a.toNat = s.cfg.spIndex.val then s.sp - 1 else s.regs[a.toNat]).toNat } := by
  have hChecks : firstFault (.call a) s = none := by
    rw [firstFault, pushFault_of_not hStack, registerFault_of_lt ha, cellFault_of_lt hCell]
    rfl
  rw [exec_of_noFault hChecks, effect, State.setSp_reg _ ha]
  rfl

/-- Settles O18: one clause for each check in its order; the return address is a byte, so it is reduced mod 256. -/
theorem callPushesReturnAddress : Obligations.CallPushesReturnAddress := by
  unfold Obligations.CallPushesReturnAddress
  intro a s
  refine ⟨rfl, fun ha hStack hCell => ?_, exec_of_pushOverflows rfl, fun hStack hCell => ?_, fun hStack hCell ha => ?_⟩
  · rw [exec_call_of_lt ha hStack hCell, ofNat_sp_sub_one hStack, ofNat_mod, apply_ite BitVec.toNat,
      sp_sub_one_toNat hStack]
  · exact exec_of_fault (by rw [firstFault, pushFault_of_not hStack, cellFault_of_ge hCell]; rfl)
  · exact exec_of_fault (by
      rw [firstFault, pushFault_of_not hStack, cellFault_of_lt hCell, registerFault_of_ge ha]; rfl)

/-- POP into a register that exists and is not the stack pointer. -/
theorem exec_pop_of_ne_sp {a : Byte} {s : State} (ha : a.toNat < 8) (hStack : ¬ s.PopUnderflows)
    (hOther : a.toNat ≠ s.cfg.spIndex.val) :
    exec (.pop a) s = .next { s with
      regs := (s.regs.set a.toNat (s.mem.read s.sp.toNat)).set s.cfg.spIndex (s.sp + 1)
      pc := s.pc + 2 } := by
  have hChecks : firstFault (.pop a) s = none := by
    rw [firstFault, popFault_of_not hStack, registerFault_of_lt ha]
    rfl
  have hSp : State.sp { s with regs := s.regs.set a.toNat (s.mem.read s.sp.toNat) } = s.sp :=
    Vector.getElem_set_ne ha _ hOther
  rw [exec_of_noFault hChecks, effect, State.setReg_of_lt _ ha, hSp]
  rfl

/-- POP into the stack pointer: the byte is loaded and then counted up (D11). -/
theorem exec_pop_of_eq_sp {a : Byte} {s : State} (hStack : ¬ s.PopUnderflows) (hSame : a.toNat = s.cfg.spIndex.val) :
    exec (.pop a) s = .next { s with
      regs := s.regs.set s.cfg.spIndex (s.mem.read s.sp.toNat + 1)
      pc := s.pc + 2 } := by
  have ha : a.toNat < 8 := hSame ▸ s.cfg.spIndex.isLt
  have hChecks : firstFault (.pop a) s = none := by
    rw [firstFault, popFault_of_not hStack, registerFault_of_lt ha]
    rfl
  rw [exec_of_noFault hChecks, effect, State.setReg_of_lt _ ha]
  simp [State.setSp, State.sp, State.advance, hSame]

/-- Settles O17: `SP` is counted up after the load, so the two kinds of register differ in what it counts up from. -/
theorem popLoadsFromStackPointer : Obligations.PopLoadsFromStackPointer := by
  unfold Obligations.PopLoadsFromStackPointer
  intro a s
  refine ⟨rfl, fun ha hStack hOther => ?_, fun hStack hSame => ?_, exec_of_popUnderflows rfl, fun hStack ha => ?_⟩
  · rw [exec_pop_of_ne_sp ha hStack hOther, ofNat_add_one]
  · rw [exec_pop_of_eq_sp hStack hSame, ofNat_mod, ofNat_add_one]
  · exact exec_of_fault (by rw [firstFault, popFault_of_not hStack, registerFault_of_ge ha]; rfl)

/-- RETURN with a byte to pop. -/
theorem exec_ret_of_not_underflows {s : State} (hStack : ¬ s.PopUnderflows) :
    exec .ret s = .next { s with
      regs := s.regs.set s.cfg.spIndex (s.sp + 1)
      pc := (s.mem.read s.sp.toNat).toNat } :=
  exec_of_noFault (popFault_of_not hStack)

/-- Settles O19: the stack test is RETURN's one check. -/
theorem returnPopsProgramCounter : Obligations.ReturnPopsProgramCounter := by
  unfold Obligations.ReturnPopsProgramCounter
  intro s
  refine ⟨rfl, fun hStack => ?_, fun hStack => exec_of_fault (popFault_of_underflows hStack)⟩
  rw [exec_ret_of_not_underflows hStack, ofNat_add_one]

/-! #### The jumps (R170 to R172) -/

/-- An instruction whose one check is that of its target register and whose effect is the jump, when the register exists. -/
theorem exec_of_jump {i : Instr} {a : Byte} {s : State} (hChecks : firstFault i s = registerFault a)
    (hEffect : effect i s = s.jumpTo (s.reg a)) (ha : a.toNat < 8) :
    exec i s = .next { s with pc := s.regs[a.toNat].toNat } := by
  rw [exec_of_noFault (hChecks.trans (registerFault_of_lt ha)), hEffect, State.reg_of_lt ha]
  rfl

theorem exec_jump_of_lt {a : Byte} {s : State} (ha : a.toNat < 8) :
    exec (.jump a) s = .next { s with pc := s.regs[a.toNat].toNat } := exec_of_jump rfl rfl ha

theorem exec_jumpIfEqual_of_lt {a : Byte} {s : State} (hE : s.flagE = true) (ha : a.toNat < 8) :
    exec (.jumpIfEqual a) s = .next { s with pc := s.regs[a.toNat].toNat } :=
  exec_of_jump (by rw [firstFault, if_pos hE]) (by rw [effect, if_pos hE]) ha

theorem exec_jumpIfNotEqual_of_lt {a : Byte} {s : State} (hE : s.flagE = false) (ha : a.toNat < 8) :
    exec (.jumpIfNotEqual a) s = .next { s with pc := s.regs[a.toNat].toNat } :=
  exec_of_jump (by rw [firstFault, if_pos hE]) (by rw [effect, if_pos hE]) ha

/-- Settles O20: a jump to its own address writes the `pc` that is there. -/
theorem jumpGoesToRegister : Obligations.JumpGoesToRegister := by
  unfold Obligations.JumpGoesToRegister
  intro a s
  refine ⟨rfl, fun ha => ⟨exec_jump_of_lt ha, fun hSelf => ?_⟩, fun ha => exec_of_fault (registerFault_of_ge ha)⟩
  rw [exec_jump_of_lt ha, hSelf]

/-- Settles O21: E decides whether the register is checked at all. -/
theorem jumpIfEqualTestsE : Obligations.JumpIfEqualTestsE := by
  unfold Obligations.JumpIfEqualTestsE
  intro a s
  refine ⟨rfl, fun hE => ?_, fun hE ha => exec_jumpIfEqual_of_lt hE ha, fun hE ha => ?_⟩
  · have hNotTaken : ¬ s.flagE = true := by simp [hE]
    rw [exec_of_noFault (by rw [firstFault, if_neg hNotTaken]), effect, if_neg hNotTaken]
    rfl
  · exact exec_of_fault (by rw [firstFault, if_pos hE, registerFault_of_ge ha])

/-- Settles O22: E decides whether the register is checked at all. -/
theorem jumpIfNotEqualTestsE : Obligations.JumpIfNotEqualTestsE := by
  unfold Obligations.JumpIfNotEqualTestsE
  intro a s
  refine ⟨rfl, fun hE => ?_, fun hE ha => exec_jumpIfNotEqual_of_lt hE ha, fun hE ha => ?_⟩
  · have hNotTaken : ¬ s.flagE = false := by simp [hE]
    rw [exec_of_noFault (by rw [firstFault, if_neg hNotTaken]), effect, if_neg hNotTaken]
    rfl
  · exact exec_of_fault (by rw [firstFault, if_pos hE, registerFault_of_ge ha])

end Sys2Proof.Machine

/-! ### Frames: what an instruction leaves alone -/

namespace Sys2Proof.Machine

variable {i : Instr} {s t : State}

/-! #### Field by field -/

theorem effect_cfg (i : Instr) (s : State) : (effect i s).cfg = s.cfg := by
  cases i with
  | jumpIfEqual a | jumpIfNotEqual a => rw [effect]; split <;> rfl
  | _ => rfl

theorem effect_status (i : Instr) (s : State) :
    (effect i s).status = s.status ∨ (i = .halt ∧ (effect i s).status = .halted) := by
  cases i with
  | halt => exact .inr ⟨rfl, rfl⟩
  | jumpIfEqual a | jumpIfNotEqual a => rw [effect]; split <;> exact .inl rfl
  | _ => exact .inl rfl

theorem effect_fl (s : State) (hOther : ∀ a b, i ≠ .compare a b) : (effect i s).fl = s.fl := by
  cases i with
  | compare a b => exact absurd rfl (hOther a b)
  | jumpIfEqual a | jumpIfNotEqual a => rw [effect]; split <;> rfl
  | _ => rfl

theorem effect_mem_of_not_stores (s : State) (hStores : i.stores = false) : (effect i s).mem = s.mem := by
  cases i with
  | push a | call a => cases hStores
  | jumpIfEqual a | jumpIfNotEqual a => rw [effect]; split <;> rfl
  | _ => rfl

/-- An instruction that stores replaces the cell below `SP` and no other (R65). -/
theorem effect_mem_of_stores (s : State) (hStores : i.stores = true) :
    ∃ v, (effect i s).mem = s.mem.write (s.sp.toNat - 1) v := by
  cases i with
  | push a | call a => exact ⟨_, rfl⟩
  | _ => cases hStores

/-- An instruction that stores and whose checks all pass has a cell that exists, and passed both stack tests. -/
theorem cell_of_stores (hStores : i.stores = true) (hChecks : firstFault i s = none) :
    ¬ s.PushOverflows ∧ s.sp.toNat - 1 < s.cfg.memCapacity := by
  cases i with
  | push a | call a =>
    simp only [firstFault, Option.or_eq_none_iff, pushFault_eq_none_iff, cellFault_eq_none_iff] at hChecks
    tauto
  | _ => cases hStores

/-- A register write leaves every other register alone. -/
theorem State.setReg_regs_ne {a : Byte} (v : Byte) {j : Fin 8} (h : j.val ≠ a.toNat) :
    (s.setReg a v).regs[j] = s.regs[j] :=
  Vector.getElem_setIfInBounds_ne j.isLt h.symm

theorem effect_regs_of_not_writesReg (s : State) {j : Fin 8} (hOther : ¬ i.writesReg s.cfg j) :
    (effect i s).regs[j] = s.regs[j] := by
  cases i with
  | add a b | loadImmediate a imm | store a b => exact State.setReg_regs_ne _ hOther
  | push a | call a | ret => exact State.setSp_regs_ne s _ j hOther
  | pop a =>
    obtain ⟨hReg, hSp⟩ := not_or.1 hOther
    exact (State.setSp_regs_ne (s.setReg a _) _ j hSp).trans (State.setReg_regs_ne _ hReg)
  | jumpIfEqual a | jumpIfNotEqual a => rw [effect]; split <;> rfl
  | multiply a b | compare a b | jump a | printRegister a | halt => rfl

/-- Settles O26: a fault leaves the registers alone, and an effect writes those of the table of R25. -/
theorem registersOutsideTheTableAreUnchanged : Obligations.RegistersOutsideTheTableAreUnchanged := by
  unfold Obligations.RegistersOutsideTheTableAreUnchanged
  intro i s t j hExec hOther
  rcases exec_cases hExec with ⟨-, rfl⟩ | ⟨f, -, rfl⟩
  · exact effect_regs_of_not_writesReg s hOther
  · rfl

theorem exec_mem_of_not_stores (hStores : i.stores = false) (hExec : exec i s = .next t) : t.mem = s.mem := by
  rcases exec_cases hExec with ⟨-, rfl⟩ | ⟨f, -, rfl⟩
  · exact effect_mem_of_not_stores s hStores
  · rfl

/-- Settles O27: memory is one and the same list. -/
theorem onlyPushAndCallStore : Obligations.OnlyPushAndCallStore := by
  unfold Obligations.OnlyPushAndCallStore
  intro i s t hStores hExec addr
  rw [exec_mem_of_not_stores hStores hExec]

/-- The one cell an instruction can change is that below `SP`, and only where the stack tests pass. -/
theorem exec_mem_read (hExec : exec i s = .next t) {addr : Nat}
    (hOther : ¬ s.PushOverflows → addr ≠ s.sp.toNat - 1) : t.mem.read addr = s.mem.read addr := by
  cases hStores : i.stores with
  | false => rw [exec_mem_of_not_stores hStores hExec]
  | true =>
    rcases exec_cases hExec with ⟨hChecks, rfl⟩ | ⟨f, -, rfl⟩
    · obtain ⟨v, hMem⟩ := effect_mem_of_stores s hStores
      rw [hMem, Memory.read_write_ne _ _ (hOther (cell_of_stores hStores hChecks).1)]
    · rfl

/-- Settles O28: the push primitive's address is the cell below `SP`, and where it faults so does the instruction. -/
theorem pushAndCallStoreOneByte : Obligations.PushAndCallStoreOneByte := by
  unfold Obligations.PushAndCallStoreOneByte
  intro i s t _ hExec
  constructor
  · intro addr u hDec b hOther
    obtain ⟨-, -, rfl, -⟩ := stackDec_ok_iff.1 hDec
    exact exec_mem_read hExec fun _ => hOther
  · intro f hDec b
    have hOverflows := pushOverflows_iff.2 (stackDec_error_iff.1 hDec).1
    exact exec_mem_read hExec fun hNot => absurd hOverflows hNot

/-- Settles O29: COMPARE's other bits are those of the flags laws, and no other instruction writes FL. -/
theorem onlyCompareWritesFlags : Obligations.OnlyCompareWritesFlags := by
  unfold Obligations.OnlyCompareWritesFlags
  intro i s t hExec
  rcases exec_cases hExec with ⟨-, rfl⟩ | ⟨f, -, rfl⟩
  · refine ⟨effect_fl s, fun p hE hG hL => ?_⟩
    cases i with
    | compare a b => exact compared_flagBit_other _ _ hE hG hL
    | _ => rw [effect_fl s (by simp)]
  · exact ⟨fun _ => rfl, fun _ _ _ _ => rfl⟩

/-- Settles O30: the status of an effect, or of a fault. -/
theorem statusChangesOnlyByHaltOrFault : Obligations.StatusChangesOnlyByHaltOrFault := by
  unfold Obligations.StatusChangesOnlyByHaltOrFault
  intro i s t hExec
  rcases exec_cases hExec with ⟨-, rfl⟩ | ⟨f, -, rfl⟩
  · exact ⟨effect_cfg i s, (effect_status i s).imp_right .inl⟩
  · exact ⟨rfl, .inr (.inr ⟨f, rfl⟩)⟩

/-! #### Faults -/

/-- From a RUNNING state an effect is never FAULTED. -/
theorem effect_status_ne_faulted (hRun : s.status = .running) (f : Fault) : (effect i s).status ≠ .faulted f := by
  rcases effect_status i s with hSame | ⟨-, hHalted⟩
  · simp [hSame, hRun]
  · simp [hHalted]

/-- A fault that an instruction ends a RUNNING cycle in is that of its first failing check. -/
theorem firstFault_of_faulted {f : Fault} (hRun : s.status = .running) (hExec : exec i s = .next t)
    (hFault : t.status = .faulted f) : firstFault i s = some f ∧ t = raiseFault f s := by
  rcases exec_cases hExec with ⟨-, rfl⟩ | ⟨g, hFirst, rfl⟩
  · exact absurd hFault (effect_status_ne_faulted hRun f)
  · cases hFault
    exact ⟨hFirst, rfl⟩

/-- Settles O32: an ended run is none of its states, and a fault of the fetch or of the instruction changes the status
alone. -/
theorem faultsArePrecise : Obligations.FaultsArePrecise := by
  unfold Obligations.FaultsArePrecise
  intro s t f hRun hStep hFault
  rcases step_cases hStep with ⟨hEnded, -⟩ | ⟨-, i, -, hExec⟩ | ⟨-, n, -, rfl⟩ | ⟨-, op, -, rfl⟩
  · exact absurd hRun hEnded
  · exact (firstFault_of_faulted hRun hExec hFault).2
  · cases hFault
    rfl
  · cases hFault
    rfl

/-- The checks an instruction can fail: that of an operand it accesses, those of the two stack primitives, and that of the
cell below `SP`. -/
theorem firstFault_cases {f : Fault} (h : firstFault i s = some f) :
    (∃ a ∈ i.accesses s, registerFault a = some f) ∨ pushFault s = some f ∨ popFault s = some f ∨
      cellFault s (s.sp.toNat - 1) = some f := by
  cases i <;> simp only [firstFault, Option.or_eq_some_iff] at h
  case add a b | multiply a b | compare a b | store a b =>
    rcases h with hFirst | ⟨-, hSecond⟩
    · exact .inl ⟨a, List.mem_cons_self, hFirst⟩
    · exact .inl ⟨b, List.mem_cons_of_mem _ (List.mem_singleton_self b), hSecond⟩
  case loadImmediate a imm => exact .inl ⟨a, List.mem_singleton_self a, h⟩
  case jump a | printRegister a => exact .inl ⟨a, List.mem_singleton_self a, h⟩
  case push a =>
    rcases h with hPush | ⟨-, hReg | ⟨-, hCell⟩⟩
    · exact .inr (.inl hPush)
    · exact .inl ⟨a, List.mem_singleton_self a, hReg⟩
    · exact .inr (.inr (.inr hCell))
  case pop a =>
    rcases h with hPop | ⟨-, hReg⟩
    · exact .inr (.inr (.inl hPop))
    · exact .inl ⟨a, List.mem_singleton_self a, hReg⟩
  case call a =>
    rcases h with hPush | ⟨-, hCell | ⟨-, hReg⟩⟩
    · exact .inr (.inl hPush)
    · exact .inr (.inr (.inr hCell))
    · exact .inl ⟨a, List.mem_singleton_self a, hReg⟩
  case ret => exact .inr (.inr (.inl h))
  case jumpIfEqual a =>
    split at h
    · next hE => exact .inl ⟨a, by simp [Instr.accesses, hE], h⟩
    · cases h
  case jumpIfNotEqual a =>
    split at h
    · next hE => exact .inl ⟨a, by simp [Instr.accesses, hE], h⟩
    · cases h
  case halt => cases h

/-- An InvalidRegister fault names an operand that the instruction accesses and that names no register. -/
theorem accessed_of_firstFault {x : Byte} (h : firstFault i s = some (.invalidRegister x)) :
    x ∈ i.accesses s ∧ 8 ≤ x.toNat := by
  rcases firstFault_cases h with ⟨a, hAccessed, hReg⟩ | hPush | hPop | hCell
  · obtain ⟨hIndex, hEq⟩ := registerFault_eq_some_iff.1 hReg
    cases hEq
    exact ⟨hAccessed, hIndex⟩
  · cases (pushFault_eq_some_iff.1 hPush).2
  · cases (popFault_eq_some_iff.1 hPop).2
  · cases (cellFault_eq_some_iff.1 hCell).2

/-- When no check fails, every operand the instruction accesses names a register. -/
theorem lt_of_accessed (h : firstFault i s = none) {x : Byte} (hx : x ∈ i.accesses s) : x.toNat < 8 := by
  cases i <;> simp only [firstFault, Instr.accesses, Option.or_eq_none_iff, registerFault_eq_none_iff] at h hx
  case add | multiply | compare | store =>
    rcases List.mem_pair.1 hx with rfl | rfl
    · exact h.1
    · exact h.2
  case loadImmediate | jump | printRegister => exact List.mem_singleton.1 hx ▸ h
  case push => exact List.mem_singleton.1 hx ▸ h.2.1
  case pop => exact List.mem_singleton.1 hx ▸ h.2
  case call => exact List.mem_singleton.1 hx ▸ h.2.2
  case ret | halt => cases hx
  case jumpIfEqual | jumpIfNotEqual => cases hE : s.flagE <;> simp_all [registerFault_eq_none_iff]

/-- Settles O34: the register checks among the checks of each instruction are those of the operands it accesses. -/
theorem invalidRegisterComesFromAccessedOperand : Obligations.InvalidRegisterComesFromAccessedOperand := by
  unfold Obligations.InvalidRegisterComesFromAccessedOperand
  intro i s t hRun hExec
  constructor
  · intro x hFault
    exact accessed_of_firstFault (firstFault_of_faulted hRun hExec hFault).1
  · intro hCompleted x hx
    rcases exec_cases hExec with ⟨hChecks, -⟩ | ⟨f, -, rfl⟩
    · exact lt_of_accessed hChecks hx
    · exact absurd rfl (hCompleted f)

/-! #### FL is read through E alone (R31) -/

/-- Two states that an observer of everything but FL cannot tell apart. -/
def AgreeButFl (s t : State) : Prop :=
  t.regs = s.regs ∧ t.mem = s.mem ∧ t.pc = s.pc ∧ t.status = s.status ∧ t.out = s.out

theorem AgreeButFl.setFl (s : State) (fl : Byte) : AgreeButFl s (s.setFl fl) := ⟨rfl, rfl, rfl, rfl, rfl⟩

section

variable {fl : Byte} (hE : flagBit fl s.cfg.flE = s.flagE)
include hE

theorem firstFault_setFl (i : Instr) : firstFault i (s.setFl fl) = firstFault i s := by
  have hFlag : (s.setFl fl).flagE = s.flagE := hE
  cases i with
  | jumpIfEqual a | jumpIfNotEqual a => rw [firstFault, firstFault, hFlag]
  | _ => rfl

theorem effect_setFl (i : Instr) : AgreeButFl (effect i s) (effect i (s.setFl fl)) := by
  have hFlag : (s.setFl fl).flagE = s.flagE := hE
  cases i with
  | jumpIfEqual a | jumpIfNotEqual a =>
    rw [effect, effect, hFlag]
    split <;> exact ⟨rfl, rfl, rfl, rfl, rfl⟩
  | _ => exact ⟨rfl, rfl, rfl, rfl, rfl⟩

end

/-- Settles O33: neither the checks nor the effects read FL but for E. -/
theorem onlyEqualFlagIsObserved : Obligations.OnlyEqualFlagIsObserved := by
  unfold Obligations.OnlyEqualFlagIsObserved
  intro i s t fl hE hExec
  rcases exec_cases hExec with ⟨hChecks, rfl⟩ | ⟨f, hFirst, rfl⟩
  · exact ⟨_, exec_of_noFault ((firstFault_setFl hE i).trans hChecks), effect_setFl hE i⟩
  · exact ⟨_, exec_of_fault ((firstFault_setFl hE i).trans hFirst), AgreeButFl.setFl (raiseFault f s) fl⟩

end Sys2Proof.Machine

/-! ### The dispatch cycle -/

namespace Sys2Proof

/-! #### Counting the opcodes (R99) -/

/-- The byte values of a table's fourteen opcodes, as numbers. -/
def Opcodes.values (t : Opcodes) : List Nat := Operation.all.map fun k => (t.byteOf k).toNat

theorem Opcodes.values_nodup {t : Opcodes} (ht : t.Valid) : t.values.Nodup := by
  refine List.Nodup.map_on (fun j _ k _ h => ?_) (by decide)
  exact byteOf_injective ht (BitVec.eq_of_toNat_eq h)

/-- A number below 256 is no value of an opcode exactly when the byte of that number is no opcode. -/
theorem Opcodes.notMem_values_iff {t : Opcodes} {n : Nat} (hn : n < 256) :
    n ∉ t.values ↔ ∀ k ∈ Operation.all, t.byteOf k ≠ BitVec.ofNat 8 n := by
  have hByte (b : Byte) : b.toNat = n ↔ b = BitVec.ofNat 8 n := by
    rw [← BitVec.toNat_inj, BitVec.toNat_ofNat, Nat.mod_eq_of_lt hn]
  simp [Opcodes.values, hByte]

theorem opcodeValues_length {t : Opcodes} (ht : t.Valid) :
    ((List.range 256).filter fun n => decide (n ∈ t.values)).length = 14 := by
  have hPerm : ((List.range 256).filter fun n => decide (n ∈ t.values)).Perm t.values := by
    refine (List.perm_ext_iff_of_nodup (List.nodup_range.filter _) (Opcodes.values_nodup ht)).2 fun n => ?_
    simp only [List.mem_filter, List.mem_range, decide_eq_true_eq, and_iff_right_iff_imp]
    intro hn
    obtain ⟨k, -, rfl⟩ := List.mem_map.1 hn
    exact (t.byteOf k).isLt
  rw [hPerm.length_eq]
  rfl

/-- Under a valid table the opcodes are fourteen of the 256 byte values, so the others number 242. -/
theorem unknownOpcodes_length {t : Opcodes} (ht : t.Valid) :
    ((List.range 256).filter fun n => decide (∀ k ∈ Operation.all, t.byteOf k ≠ BitVec.ofNat 8 n)).length = 242 := by
  have hNot : ((List.range 256).filter fun n => decide (∀ k ∈ Operation.all, t.byteOf k ≠ BitVec.ofNat 8 n)) =
      (List.range 256).filter fun n => !decide (n ∈ t.values) := by
    refine List.filter_congr fun n hn => ?_
    rw [← decide_not, decide_eq_decide]
    exact (Opcodes.notMem_values_iff (List.mem_range.1 hn)).symm
  have hTotal := List.length_eq_length_filter_add (l := List.range 256) fun n => decide (n ∈ t.values)
  rw [List.length_range, opcodeValues_length ht] at hTotal
  rw [hNot]
  omega

end Sys2Proof

namespace Sys2Proof.Machine

variable {i : Instr} {s t : State}

/-! #### What the fetch can be (R98 steps 1 to 4) -/

theorem fetchInstr_eq_ok_iff : fetchInstr s = .ok i ↔ ∃ rest, decode s.cfg (fetchWindow s) = .ok (i, rest) := by
  rw [fetchInstr]
  rcases decode s.cfg (fetchWindow s) with e | ⟨j, rest⟩ <;> simp

theorem fetchInstr_eq_error_iff {e : DecodeError} :
    fetchInstr s = .error e ↔ decode s.cfg (fetchWindow s) = .error e := by
  rw [fetchInstr]
  cases decode s.cfg (fetchWindow s) <;> simp

theorem fetchWindow_length (s : State) : (fetchWindow s).length = min 3 (s.cfg.memCapacity - s.pc) :=
  readBytes_length s 3 s.pc

/-- The fetched instruction stands in memory with all its bytes (R98 step 4). -/
theorem fetched_fits (h : fetchInstr s = .ok i) : s.pc + (i.operation.arity + 1) ≤ s.cfg.memCapacity := by
  obtain ⟨rest, hDecode⟩ := fetchInstr_eq_ok_iff.1 h
  have hWindow := congrArg List.length (encodeInvertsDecode _ _ _ _ hDecode)
  rw [fetchWindow_length, encode, List.length_append, List.length_cons, operands_length_eq_arity] at hWindow
  omega

/-- Where the fetch stops for want of a byte, that byte's address is outside memory. -/
theorem fetch_truncated_outside {n : Nat} (h : fetchInstr s = .error (.truncated n)) : s.cfg.memCapacity ≤ s.pc + n := by
  obtain ⟨hLength, hShort⟩ := length_of_decode_truncated (fetchInstr_eq_error_iff.1 h)
  rw [fetchWindow_length] at hLength
  omega

/-- The fetch stops at an unknown opcode exactly where the byte at `pc` exists and is none of the table. -/
theorem fetch_unknownOpcode_iff {op : Byte} :
    fetchInstr s = .error (.unknownOpcode op) ↔
      s.pc < s.cfg.memCapacity ∧ s.mem.read s.pc = op ∧ ∀ k ∈ Operation.all, s.cfg.opcodes.byteOf k ≠ op := by
  rw [fetchInstr_eq_error_iff, decode_unknownOpcode_iff, ← and_assoc]
  refine and_congr_left fun _ => ?_
  rcases Nat.lt_or_ge s.pc s.cfg.memCapacity with hInside | hOutside
  · simp [fetchWindow_eq_cons hInside, hInside]
  · have hEmpty : fetchWindow s = [] := List.eq_nil_of_length_eq_zero (by rw [fetchWindow_length]; omega)
    simp [hEmpty, Nat.not_lt.2 hOutside]

/-- Settles O6: the opcodes are fourteen different byte values, and the byte at `pc` alone decides that it is unknown. -/
theorem unknownOpcodeBytesFault : Obligations.UnknownOpcodeBytesFault := by
  unfold Obligations.UnknownOpcodeBytesFault
  constructor
  · intro c hc
    obtain ⟨-, -, -, -, hTable, -⟩ := hc
    exact unknownOpcodes_length hTable
  · intro s hRun hPc hUnknown
    exact step_of_stop hRun (fetch_unknownOpcode_iff.2 ⟨hPc, rfl, hUnknown⟩)

/-- Settles O35: such a window is one whose fetch gives the instruction. -/
theorem stepRunsDecodedInstruction : Obligations.StepRunsDecodedInstruction := by
  unfold Obligations.StepRunsDecodedInstruction
  intro s i rest hRun hDecode
  exact step_of_fetch hRun (fetchInstr_eq_ok_iff.2 ⟨rest, hDecode⟩)

/-- Settles O36: the instruction's bytes begin the fetch window, and the decoder reads it back from them. -/
theorem stepRunsInstructionInMemory : Obligations.StepRunsInstructionInMemory := by
  unfold Obligations.StepRunsInstructionInMemory
  intro s i hRun hWellFormed hHolds
  exact step_of_holdsInstr hRun hWellFormed hHolds

/-- Settles O37: outside memory the fetch window is empty; at an opcode it ends where memory ends. -/
theorem fetchOutsideMemoryFaults : Obligations.FetchOutsideMemoryFaults := by
  unfold Obligations.FetchOutsideMemoryFaults
  intro s hc hRun
  obtain ⟨-, -, -, -, hTable, -⟩ := hc
  constructor
  · intro hOutside
    have hEmpty : fetchWindow s = [] := List.eq_nil_of_length_eq_zero (by rw [fetchWindow_length]; omega)
    have hFetch : fetchInstr s = .error (.truncated 0) := fetchInstr_eq_error_iff.2 (by rw [hEmpty]; rfl)
    exact step_of_stop hRun hFetch
  · intro k hPc hOp hBeyond
    exact step_of_operands_beyond_memory hTable hRun hPc hOp hBeyond

theorem step_of_ended (h : s.Ended) : step s = .next s := by
  cases hStatus : s.status with
  | running => exact absurd hStatus h
  | halted => rw [step, hStatus]; rfl
  | faulted f => rw [step, hStatus]; rfl

/-- Settles O38: an instruction always answers a next state, and a valid table is never refused. -/
theorem stepIsTotal : Obligations.StepIsTotal := by
  unfold Obligations.StepIsTotal
  intro s hc
  obtain ⟨-, -, -, -, hTable, -⟩ := hc
  by_cases hRun : s.status = .running
  · cases hFetch : fetchInstr s with
    | ok i =>
      rw [step_of_fetch hRun hFetch]
      exact exists_exec_next i s
    | error e =>
      rw [step_of_stop hRun hFetch]
      cases e with
      | truncated n => exact ⟨_, rfl⟩
      | unknownOpcode op => exact ⟨_, rfl⟩
      | operandMismatch op => exact absurd (fetchInstr_eq_error_iff.1 hFetch) (decode_ne_operandMismatch hTable _ op)
  · exact ⟨s, step_of_ended hRun⟩

/-- Settles O39, by induction on the number of steps. -/
theorem endedRunStaysPut : Obligations.EndedRunStaysPut := by
  unfold Obligations.EndedRunStaysPut
  intro s k hEnded
  induction k with
  | zero => rfl
  | succ k ih =>
    rw [run_succ, step_of_ended hEnded]
    exact ih

/-- The status of an instruction's result is HALTED, from a RUNNING state, exactly for HALT. -/
theorem exec_halted_iff (hRun : s.status = .running) (hExec : exec i s = .next t) : t.status = .halted ↔ i = .halt := by
  rcases exec_cases hExec with ⟨hChecks, rfl⟩ | ⟨f, hFirst, rfl⟩
  · constructor
    · intro hHalted
      rcases effect_status i s with hSame | ⟨hHalt, -⟩
      · rw [hSame, hRun] at hHalted
        cases hHalted
      · exact hHalt
    · rintro rfl
      rfl
  · constructor
    · intro hHalted
      cases hHalted
    · rintro rfl
      cases hFirst

/-- Settles O40: of the ways a RUNNING step can go only the execution of HALT ends HALTED. -/
theorem stepHaltsExactlyAtHalt : Obligations.StepHaltsExactlyAtHalt := by
  unfold Obligations.StepHaltsExactlyAtHalt
  intro s t hRun hStep
  rcases step_cases hStep with ⟨hEnded, -⟩ | ⟨-, i, hFetch, hExec⟩ | ⟨-, n, hFetch, rfl⟩ | ⟨-, op, hFetch, rfl⟩
  · exact absurd hRun hEnded
  · rw [exec_halted_iff hRun hExec, hFetch, Except.ok.injEq]
  · simp [hFetch]
  · simp [hFetch]

/-- Settles O24: HALT's effect is the status, and from there the run has ended. -/
theorem haltEndsTheRun : Obligations.HaltEndsTheRun := by
  unfold Obligations.HaltEndsTheRun
  intro s
  refine ⟨rfl, rfl, fun hc hRun hHolds k => ?_⟩
  have hHalted : State.Ended { s with status := .halted } := by simp [State.Ended]
  have hStep : step s = .next { s with status := .halted } :=
    step_of_holdsInstr hRun (wellFormed_of_valid hc .halt) hHolds
  rw [run_succ, hStep]
  exact endedRunStaysPut _ k hHalted

end Sys2Proof.Machine

/-! ### Invariants -/

namespace Sys2Proof.Machine

variable {i : Instr} {s t : State}

/-! #### The machine's invariant -/

theorem effect_mem_wf (hMem : s.mem.wf) : (effect i s).mem.wf := by
  cases hStores : i.stores with
  | false => rwa [effect_mem_of_not_stores s hStores]
  | true =>
    obtain ⟨v, hWrite⟩ := effect_mem_of_stores s hStores
    rw [hWrite]
    exact Memory.write_wf hMem _ v

theorem effect_mem_bounded (hChecks : firstFault i s = none) (hMem : ∀ p ∈ s.mem, p.1 < s.cfg.memCapacity) :
    ∀ p ∈ (effect i s).mem, p.1 < s.cfg.memCapacity := by
  cases hStores : i.stores with
  | false => rwa [effect_mem_of_not_stores s hStores]
  | true =>
    obtain ⟨v, hWrite⟩ := effect_mem_of_stores s hStores
    rw [hWrite]
    exact Memory.write_bounded hMem (cell_of_stores hStores hChecks).2

/-- After an instruction `pc` is behind the instruction, or a byte that a transfer loaded, or where it was (R27). -/
theorem effect_pc (i : Instr) (s : State) :
    (effect i s).pc = s.pc + (i.operation.arity + 1) ∨ (effect i s).pc ≤ 255 ∨ (effect i s).pc = s.pc := by
  have hJump (u : State) (target : Byte) : (u.jumpTo target).pc ≤ 255 := Nat.le_of_lt_succ target.isLt
  cases i with
  | call a | ret | jump a => exact .inr (.inl (hJump _ _))
  | jumpIfEqual a | jumpIfNotEqual a =>
    rw [effect]
    split
    · exact .inr (.inl (hJump _ _))
    · exact .inl rfl
  | halt => exact .inr (.inr rfl)
  | _ => exact .inl rfl

/-- COMPARE under non-sticky flags leaves exactly the condition that holds of the two bytes. -/
theorem compared_flagsExclusive (hc : s.cfg.Valid) (va vb : Byte) : (s.compared va vb).FlagsExclusive := by
  intro (hSticky : s.cfg.flagsSticky = false)
  simp only [← Bool.not_eq_true, compared_flagE_iff hc, compared_flagG_iff hc, compared_flagL_iff hc, hSticky,
    Bool.false_eq_true, false_and, or_false, BitVec.toNat_eq]
  omega

theorem effect_flagsReserved (hFlags : s.FlagsReserved) : (effect i s).FlagsReserved := by
  unfold State.FlagsReserved
  rw [effect_cfg]
  intro p hE hG hL
  cases i with
  | compare a b => exact (compared_flagBit_other _ _ hE hG hL).trans (hFlags p hE hG hL)
  | _ => rw [effect_fl s (by simp)]; exact hFlags p hE hG hL

theorem effect_flagsExclusive (hc : s.cfg.Valid) (hFlags : s.FlagsExclusive) : (effect i s).FlagsExclusive := by
  cases i with
  | compare a b => exact compared_flagsExclusive hc _ _
  | _ =>
    unfold State.FlagsExclusive State.flagE State.flagG State.flagL
    rw [effect_cfg, effect_fl s (by simp)]
    exact hFlags

/-- The instruction fetched at `pc`, when none of its checks fails, keeps the invariant. -/
theorem effect_inv (hInv : s.Inv) (hFetch : fetchInstr s = .ok i) (hChecks : firstFault i s = none) :
    (effect i s).Inv := by
  obtain ⟨hc, hWf, hBounded, hPc, hReserved, hExclusive⟩ := hInv
  have hFits := fetched_fits hFetch
  refine ⟨?_, effect_mem_wf hWf, ?_, ?_, effect_flagsReserved hReserved, effect_flagsExclusive hc hExclusive⟩
  · rwa [effect_cfg]
  · rw [effect_cfg]
    exact effect_mem_bounded hChecks hBounded
  · rw [effect_cfg]
    rcases effect_pc i s with hBehind | hByte | hSame
    · exact .inl (hBehind ▸ hFits)
    · exact .inr hByte
    · rwa [hSame]

/-- Taking a fault keeps the invariant, which does not speak of the status. -/
theorem raiseFault_inv (hInv : s.Inv) (f : Fault) : (raiseFault f s).Inv := hInv

theorem step_keeps_inv (hInv : s.Inv) (hStep : step s = .next t) : t.Inv := by
  rcases step_cases hStep with ⟨-, rfl⟩ | ⟨-, i, hFetch, hExec⟩ | ⟨-, n, -, rfl⟩ | ⟨-, op, -, rfl⟩
  · exact hInv
  · rcases exec_cases hExec with ⟨hChecks, rfl⟩ | ⟨f, -, rfl⟩
    · exact effect_inv hInv hFetch hChecks
    · exact raiseFault_inv hInv f
  · exact raiseFault_inv hInv _
  · exact raiseFault_inv hInv _

/-- Settles O41: clause by clause for the effect of the instruction fetched; a fault changes nothing the invariant speaks
of. -/
theorem stepKeepsInvariant : Obligations.StepKeepsInvariant := by
  unfold Obligations.StepKeepsInvariant
  intro s t hInv hStep
  exact step_keeps_inv hInv hStep

theorem resetOf_inv {c : Config} (hc : c.Valid) : (State.resetOf c).Inv := by
  refine ⟨hc, Memory.resetOf_wf c, ?_, .inr (Nat.zero_le _), ?_, ?_⟩
  · intro p hp
    cases hp
  · intro p _ _ _
    exact flagBit_zero p
  · intro _
    exact ⟨.inl (flagBit_zero _), .inl (flagBit_zero _), .inl (flagBit_zero _)⟩

/-- Settles O42: memory lists nothing, `pc` is 0 and no flag is set. -/
theorem resetMeetsInvariant : Obligations.ResetMeetsInvariant := by
  unfold Obligations.ResetMeetsInvariant
  intro c hc
  exact resetOf_inv hc

/-! #### What a FAULTED status records (R201 to R207) -/

/-- The record of a fault does not depend on the status. -/
theorem faultRecordTrue_raiseFault {f g : Fault} (h : FaultRecordTrue s f) : FaultRecordTrue (raiseFault g s) f := by
  cases f <;> exact h

theorem faultRecorded_raiseFault {f : Fault} (h : FaultRecordTrue s f) : (raiseFault f s).FaultRecorded := by
  intro g hStatus
  cases hStatus
  exact faultRecordTrue_raiseFault h

/-- A fault of an instruction records what its check found. -/
theorem faultRecordTrue_of_firstFault {f : Fault} (h : firstFault i s = some f) : FaultRecordTrue s f := by
  rcases firstFault_cases h with ⟨a, -, hReg⟩ | hPush | hPop | hCell
  · obtain ⟨hIndex, rfl⟩ := registerFault_eq_some_iff.1 hReg
    exact hIndex
  · obtain ⟨hOverflows, rfl⟩ := pushFault_eq_some_iff.1 hPush
    exact ⟨rfl, pushOverflows_iff.1 hOverflows⟩
  · obtain ⟨hUnderflows, rfl⟩ := popFault_eq_some_iff.1 hPop
    exact ⟨rfl, hUnderflows⟩
  · obtain ⟨hOutside, rfl⟩ := cellFault_eq_some_iff.1 hCell
    exact hOutside

theorem step_keeps_faultRecorded (hRecorded : s.FaultRecorded) (hStep : step s = .next t) : t.FaultRecorded := by
  rcases step_cases hStep with ⟨-, rfl⟩ | ⟨hRun, i, -, hExec⟩ | ⟨-, n, hFetch, rfl⟩ | ⟨-, op, hFetch, rfl⟩
  · exact hRecorded
  · rcases exec_cases hExec with ⟨-, rfl⟩ | ⟨f, hFirst, rfl⟩
    · exact fun f hFault => absurd hFault (effect_status_ne_faulted hRun f)
    · exact faultRecorded_raiseFault (faultRecordTrue_of_firstFault hFirst)
  · have hOutside : FaultRecordTrue s (.outOfBounds (s.pc + n)) := fetch_truncated_outside hFetch
    exact faultRecorded_raiseFault hOutside
  · obtain ⟨hInside, hByte, hUnknown⟩ := fetch_unknownOpcode_iff.1 hFetch
    exact faultRecorded_raiseFault ⟨hUnknown, hInside, hByte⟩

/-- Settles O43: each fault of a step is one that an instruction's check or the fetch has found, and its record says what
was found. -/
theorem stepKeepsFaultRecordsTrue : Obligations.StepKeepsFaultRecordsTrue := by
  unfold Obligations.StepKeepsFaultRecordsTrue
  intro s t hRecorded hStep
  exact step_keeps_faultRecorded hRecorded hStep

/-! #### Whole runs -/

/-- A loaded machine differs from the reset state in its memory, which the load keeps canonical and within bounds. -/
theorem boot_inv {c : Config} {image : List Byte} (hc : c.Valid) (hBoot : State.boot c image = some s) : s.Inv := by
  obtain ⟨-, rfl⟩ := boot_eq_some_iff.1 hBoot
  obtain ⟨-, hWf, hBounded, hPc, hReserved, hExclusive⟩ := resetOf_inv hc
  have hMemWf := placeBytes_wf hWf 0 image
  have hMemBounded := placeBytes_bounded hBounded 0 image
  rw [placeBytes_eq]
  exact ⟨hc, hMemWf, hMemBounded, hPc, hReserved, hExclusive⟩

theorem boot_faultRecorded {c : Config} {image : List Byte} (hBoot : State.boot c image = some s) :
    s.FaultRecorded := by
  obtain ⟨-, rfl⟩ := boot_eq_some_iff.1 hBoot
  rw [placeBytes_eq]
  intro f hFault
  cases hFault

/-- Settles O44: the loaded machine meets both, every step keeps both, and so does every run. -/
theorem everyRunKeepsInvariant : Obligations.EveryRunKeepsInvariant := by
  unfold Obligations.EveryRunKeepsInvariant
  intro c image s t k hc hBoot hRun
  refine run_induction (P := fun u => u.Inv ∧ u.FaultRecorded) (fun u v hu hStep => ?_)
    ⟨boot_inv hc hBoot, boot_faultRecorded hBoot⟩ hRun
  exact ⟨step_keeps_inv hu.1 hStep, step_keeps_faultRecorded hu.2 hStep⟩

/-- The one cell a step can change is that below `SP`, and only where the stack tests pass. -/
theorem step_mem_read (hStep : step s = .next t) {addr : Nat} (hOther : ¬ s.PushOverflows → addr ≠ s.sp.toNat - 1) :
    t.mem.read addr = s.mem.read addr := by
  rcases step_cases hStep with ⟨-, rfl⟩ | ⟨-, i, -, hExec⟩ | ⟨-, n, -, rfl⟩ | ⟨-, op, -, rfl⟩
  · rfl
  · exact exec_mem_read hExec hOther
  · rfl
  · rfl

theorem step_cfg (hStep : step s = .next t) : t.cfg = s.cfg := by
  rcases step_cases hStep with ⟨-, rfl⟩ | ⟨-, i, -, hExec⟩ | ⟨-, n, -, rfl⟩ | ⟨-, op, -, rfl⟩
  · rfl
  · exact (statusChangesOnlyByHaltOrFault i s t hExec).1
  · rfl
  · rfl

/-- Two states of one configuration whose memories agree below its STACK_LIMIT. -/
def AgreeBelowStackLimit (s t : State) : Prop :=
  t.cfg = s.cfg ∧ ∀ addr < s.cfg.stackLimit, t.mem.read addr = s.mem.read addr

/-- Below the limit no push that passes its tests stores (R151). -/
theorem step_agreeBelowStackLimit (hStep : step s = .next t) : AgreeBelowStackLimit s t := by
  refine ⟨step_cfg hStep, fun addr hBelow => step_mem_read hStep fun hStack => ?_⟩
  rw [pushOverflows_iff] at hStack
  omega

theorem AgreeBelowStackLimit.trans {u : State} (h₁ : AgreeBelowStackLimit s t) (h₂ : AgreeBelowStackLimit t u) :
    AgreeBelowStackLimit s u := by
  obtain ⟨hCfg₁, hMem₁⟩ := h₁
  obtain ⟨hCfg₂, hMem₂⟩ := h₂
  rw [hCfg₁] at hMem₂
  exact ⟨hCfg₂.trans hCfg₁, fun addr hBelow => (hMem₂ addr hBelow).trans (hMem₁ addr hBelow)⟩

/-- Settles O47: a push that passes its tests stores neither below STACK_LIMIT nor at `pc`. -/
theorem cellsBelowStackLimitSurviveEveryRun : Obligations.CellsBelowStackLimitSurviveEveryRun := by
  unfold Obligations.CellsBelowStackLimitSurviveEveryRun
  constructor
  · intro k s t hRun
    have hAgree : AgreeBelowStackLimit s t := run_induction (P := AgreeBelowStackLimit s)
      (fun _ _ hu hStep => hu.trans (step_agreeBelowStackLimit hStep)) ⟨rfl, fun _ _ => rfl⟩ hRun
    exact hAgree.2
  · intro s t hStep
    refine step_mem_read hStep fun hStack => ?_
    rw [pushOverflows_iff] at hStack
    omega

end Sys2Proof.Machine

/-! ### Instructions in a row -/

namespace Sys2Proof.Machine

variable {i : Instr} {s t : State}

/-! #### POPs from the reset stack pointer (R152) -/

/-- A POP that finds a byte, into a register other than the stack pointer, raises `SP` by one and changes neither status
nor configuration. -/
theorem exists_pop_next {a : Byte} (hc : s.cfg.Valid) (ha : a.toNat < 8) (hOther : a.toNat ≠ s.cfg.spIndex.val)
    (hStack : s.sp.toNat + 1 < s.cfg.memCapacity) :
    ∃ t, exec (.pop a) s = .next t ∧ t.status = s.status ∧ t.cfg = s.cfg ∧ t.sp.toNat = s.sp.toNat + 1 := by
  obtain ⟨-, hCapacity, -⟩ := hc
  refine ⟨_, exec_pop_of_ne_sp ha (Nat.not_le.2 hStack) hOther, rfl, rfl, ?_⟩
  have hSp : (s.sp + 1).toNat = s.sp.toNat + 1 := by
    rw [BitVec.toNat_add_of_lt (by simp; omega)]
    rfl
  simpa [State.sp] using hSp

theorem execTimes_succ_of_running {n : Nat} (hExec : exec i s = .next t) (hRun : t.status = .running) :
    execTimes i (n + 1) s = execTimes i n t := by
  rw [execTimes, hExec]
  exact if_pos hRun

/-- As many POPs complete as there are cells above `SP` but the last. -/
theorem execTimes_pop_completes {a : Byte} {n : Nat} (hc : s.cfg.Valid) (hRun : s.status = .running) (ha : a.toNat < 8)
    (hOther : a.toNat ≠ s.cfg.spIndex.val) (hRoom : s.sp.toNat + n < s.cfg.memCapacity) :
    ∃ t, execTimes (.pop a) n s = .next t ∧ t.status = .running ∧ t.sp.toNat = s.sp.toNat + n := by
  induction n generalizing s with
  | zero => exact ⟨s, rfl, hRun, rfl⟩
  | succ n ih =>
    obtain ⟨u, hExec, hStatus, hCfg, hSp⟩ := exists_pop_next hc ha hOther (by omega)
    obtain ⟨t, hTimes, hEnd, hSpEnd⟩ := ih (hCfg ▸ hc) (hStatus.trans hRun) (hCfg ▸ hOther) (by rw [hSp, hCfg]; omega)
    refine ⟨t, ?_, hEnd, by omega⟩
    rw [execTimes_succ_of_running hExec (hStatus.trans hRun), hTimes]

/-- One POP more takes the underflow at the last cell. -/
theorem execTimes_pop_underflows {a : Byte} {n : Nat} (hc : s.cfg.Valid) (hRun : s.status = .running) (ha : a.toNat < 8)
    (hOther : a.toNat ≠ s.cfg.spIndex.val) (hRoom : s.sp.toNat + n + 1 = s.cfg.memCapacity) :
    ∃ t sp, execTimes (.pop a) (n + 1) s = .next t ∧ t.status = .faulted (.stackUnderflow sp) ∧
      sp.toNat = s.cfg.memCapacity - 1 := by
  induction n generalizing s with
  | zero =>
    have hExec := exec_of_popUnderflows (i := .pop a) rfl (Nat.le_of_eq hRoom.symm)
    exact ⟨_, s.sp, by rw [execTimes, hExec]; rfl, rfl, by omega⟩
  | succ n ih =>
    obtain ⟨u, hExec, hStatus, hCfg, hSp⟩ := exists_pop_next hc ha hOther (by omega)
    obtain ⟨t, sp, hTimes, hEnd, hLast⟩ :=
      ih (hCfg ▸ hc) (hStatus.trans hRun) (hCfg ▸ hOther) (by rw [hSp, hCfg]; omega)
    refine ⟨t, sp, ?_, hEnd, hCfg ▸ hLast⟩
    rw [execTimes_succ_of_running hExec (hStatus.trans hRun), hTimes]

/-- Settles O25, by induction on the number of POPs: the reset stack pointer stands VECTOR_TABLE_SIZE cells below the last
one. -/
theorem popsFromResetUnderflowAfterVectorTable : Obligations.PopsFromResetUnderflowAfterVectorTable := by
  unfold Obligations.PopsFromResetUnderflowAfterVectorTable
  intro a s hc hRun hReset ha hOther
  have hSp : s.sp.toNat = s.cfg.memCapacity - 1 - s.cfg.vectorTableSize := by rw [hReset, spInit_toNat hc]
  obtain ⟨hNonempty, -, hTable, -⟩ := id hc
  exact ⟨fun n hn => execTimes_pop_completes hc hRun ha hOther (by omega),
    execTimes_pop_underflows hc hRun ha hOther (by omega)⟩

/-! #### PUSH and POP (R155) -/

/-- An instruction still stands in memory after changes to other cells. -/
theorem HoldsInstr.of_same_reads {addr : Nat} (hHolds : HoldsInstr s addr i) (hCfg : t.cfg = s.cfg)
    (hRead : ∀ k ≤ i.operation.arity, t.mem.read (addr + k) = s.mem.read (addr + k)) : HoldsInstr t addr i := by
  unfold HoldsInstr
  rw [hCfg]
  intro k hk
  obtain ⟨hInside, hByte⟩ := memRead_ok_iff.1 (hHolds k hk)
  rw [encode, List.length_cons, operands_length_eq_arity] at hk
  exact memRead_ok_iff.2 ⟨hCfg ▸ hInside, by rw [hByte, hRead k (Nat.le_of_lt_succ hk)]⟩

/-- What the push primitive stored is what stands at the new `SP`. -/
theorem pushByte_read_sp (hWf : s.mem.wf) (hStack : ¬ s.PushOverflows) (v : Byte) :
    (s.pushByte v).mem.read (s.pushByte v).sp.toNat = v := by
  have hSp : (s.pushByte v).sp.toNat = s.sp.toNat - 1 := by
    rw [State.pushByte_sp, sp_sub_one_toNat hStack]
  rw [hSp, State.pushByte_mem, Memory.read_write_same hWf]

theorem exec_push_of_ne_sp {a : Byte} (ha : a.toNat < 8) (hOther : a.toNat ≠ s.cfg.spIndex.val)
    (hStack : ¬ s.PushOverflows) (hCell : s.sp.toNat - 1 < s.cfg.memCapacity) :
    exec (.push a) s = .next ((s.pushByte s.regs[a.toNat]).advance 2) := by
  rw [exec_push_of_lt ha hStack hCell, if_neg hOther]
  rfl

/-- A POP right after a push reads the byte that was pushed and puts `SP` back. -/
theorem exists_pop_after_push {a v : Byte} {n : Nat} (hWf : s.mem.wf) (hStack : ¬ s.PushOverflows)
    (hSpInside : s.sp.toNat < s.cfg.memCapacity) (ha : a.toNat < 8) (hOther : a.toNat ≠ s.cfg.spIndex.val) :
    ∃ t, exec (.pop a) ((s.pushByte v).advance n) = .next t ∧ t.regs[a.toNat] = v ∧ t.sp = s.sp ∧
      t.pc = s.pc + n + 2 ∧ t.status = s.status := by
  have hNoUnderflow : ¬ ((s.pushByte v).advance n).PopUnderflows := by
    rw [State.PopUnderflows, State.advance_sp, State.pushByte_sp, sp_sub_one_toNat hStack]
    rw [pushOverflows_iff] at hStack
    show ¬ (_ ≥ s.cfg.memCapacity)
    omega
  refine ⟨_, exec_pop_of_ne_sp ha hNoUnderflow hOther, ?_, ?_, rfl, rfl⟩
  · refine (Vector.getElem_set_ne s.cfg.spIndex.isLt ha hOther.symm).trans ?_
    rw [Vector.getElem_set_self]
    exact pushByte_read_sp hWf hStack v
  · refine (Vector.getElem_set_self s.cfg.spIndex.isLt).trans ?_
    rw [State.advance_sp, State.pushByte_sp, BitVec.sub_add_cancel]

/-- Settles O48: the PUSH leaves the bytes of the POP alone, and the POP reads the cell the PUSH wrote. -/
theorem pushThenPopMovesValue : Obligations.PushThenPopMovesValue := by
  unfold Obligations.PushThenPopMovesValue
  intro s r r' hr hr' hInv hRun hNotSp hNotSp' hPush hPop hStack hSpInside hNotOpcode hNotOperand
  obtain ⟨hc, hWf, -⟩ := hInv
  have hFirst := (step_of_holdsInstr hRun (wellFormed_of_valid hc _) hPush).trans
    (exec_push_of_ne_sp hr hNotSp hStack (by omega))
  have hPopStands : HoldsInstr ((s.pushByte s.regs[r.toNat]).advance 2) (s.pc + 2) (.pop r') := by
    refine hPop.of_same_reads rfl fun k hk => Memory.read_write_ne _ _ ?_
    have hOneOperand : k ≤ 1 := hk
    rw [pushOverflows_iff] at hStack
    omega
  obtain ⟨t, hExec, hValue, hSp, hPc, hStatus⟩ := exists_pop_after_push (v := s.regs[r.toNat]) (n := 2) hWf hStack
    hSpInside hr' hNotSp'
  have hSecond := (step_of_holdsInstr (s := (s.pushByte s.regs[r.toNat]).advance 2) hRun (wellFormed_of_valid hc _)
    hPopStands).trans hExec
  exact ⟨t, run_two hFirst hSecond, hValue, hSp, hPc, hStatus.trans hRun⟩

/-! #### CALL and RETURN (R162) -/

/-- An instruction that ends RUNNING has failed no check and had its effect. -/
theorem effect_of_exec_running (hExec : exec i s = .next t) (hRun : t.status = .running) :
    firstFault i s = none ∧ t = effect i s := by
  rcases exec_cases hExec with hCompleted | ⟨f, -, rfl⟩
  · exact hCompleted
  · cases hRun

/-- Settles O49: the RETURN pops the byte that the CALL pushed, which at 253 or below is the whole return address. -/
theorem callThenReturnComesBack : Obligations.CallThenReturnComesBack := by
  unfold Obligations.CallThenReturnComesBack
  intro s u t r hInv hRun hPc hCall hStepCall hRunCall hRet hStepRet hRunRet
  obtain ⟨hc, hWf, -⟩ := hInv
  have hcCall : (effect (.call r) s).cfg.Valid := by rwa [effect_cfg]
  rw [step_of_holdsInstr hRun (wellFormed_of_valid hc _) hCall] at hStepCall
  obtain ⟨hChecks, rfl⟩ := effect_of_exec_running hStepCall hRunCall
  obtain ⟨hStack, -⟩ := cell_of_stores rfl hChecks
  rw [step_of_holdsInstr hRunCall (wellFormed_of_valid hcCall _) hRet] at hStepRet
  obtain ⟨-, rfl⟩ := effect_of_exec_running hStepRet hRunRet
  constructor
  · have hPopped := congrArg BitVec.toNat (pushByte_read_sp hWf hStack (BitVec.ofNat 8 (s.pc + 2)))
    rw [BitVec.toNat_ofNat, Nat.mod_eq_of_lt (by omega)] at hPopped
    exact hPopped
  · have hSp : (effect .ret (effect (.call r) s)).sp = s.sp - 1 + 1 := by
      simp only [effect, State.jumpTo_sp, State.setSp_sp, State.pushByte_sp]
    rw [hSp, BitVec.sub_add_cancel]

/-! #### COMPARE and a conditional jump (R173) -/

/-- What follows a COMPARE in memory runs with its flags. -/
theorem run_compare_then {a b : Byte} (hc : s.cfg.Valid) (hRun : s.status = .running) (ha : a.toNat < 8)
    (hb : b.toNat < 8) (hCompare : HoldsInstr s s.pc (.compare a b)) (hNext : HoldsInstr s (s.pc + 3) i)
    (hExec : exec i (s.compared s.regs[a.toNat] s.regs[b.toNat]) = .next t) :
    Host.Core.run Sys2Proof.core 2 s = .next t := by
  have hFirst := (step_of_holdsInstr hRun (wellFormed_of_valid hc _) hCompare).trans (exec_compare_of_lt s ha hb)
  refine run_two hFirst (Eq.trans ?_ hExec)
  exact step_of_holdsInstr hRun (wellFormed_of_valid hc i) (hNext.of_same_mem rfl rfl)

/-- Settles O50: COMPARE leaves E set exactly when the bytes are equal, unless an old E has survived. -/
theorem compareThenBranchIsTaken : Obligations.CompareThenBranchIsTaken := by
  unfold Obligations.CompareThenBranchIsTaken
  intro s a b r ha hb hr hc hRun hCompare
  have hE := compared_flagE_iff hc s.regs[a.toNat] s.regs[b.toNat]
  constructor
  · intro hEqual hJump
    exact ⟨_, run_compare_then hc hRun ha hb hCompare hJump (exec_jumpIfEqual_of_lt (hE.2 (.inl hEqual)) hr), rfl⟩
  · intro hUnequal hCleared hJump
    have hNotE : ¬ (s.compared s.regs[a.toNat] s.regs[b.toNat]).flagE = true := by
      rw [hE]
      rintro (hEqual | ⟨hSticky, hOld⟩)
      · exact hUnequal hEqual
      · rcases hCleared with hNotSticky | hClear
        · rw [hNotSticky] at hSticky
          cases hSticky
        · exact absurd (hClear.symm.trans hOld) Bool.false_ne_true
    exact ⟨_, run_compare_then hc hRun ha hb hCompare hJump
      (exec_jumpIfNotEqual_of_lt (Bool.eq_false_of_not_eq_true hNotE) hr), rfl⟩

end Sys2Proof.Machine
